-- ==== Sys2Proof/Word.lean ====
section
/-! DEFINITION. The word types of the core (spec 00_scope.md R5, R7) and the five-register tuple that H[0..4] and A..E share. -/

namespace Sys2Proof

/-- A byte of the message, of BUF and of PADBLK (00 R5). -/
abbrev Byte := BitVec 8

/-- WORD: 32 bits, unsigned (00 R5, R7): the registers, the schedule and the channel words. `+` on it is
addition modulo 2^32 (00 R8, 40 R105). -/
abbrev Word := BitVec 32

/-- The five registers the source names a, b, c, d, e: as the chained state they are H[0], ..., H[4] (10 R20), as
the working registers of one compression A, ..., E (10 R21). -/
structure Regs where
  a : Word
  b : Word
  c : Word
  d : Word
  e : Word
deriving DecidableEq, Repr

/-- BLOCK: exactly 64 bytes (00 R5). -/
abbrev Block := Vector Byte 64

/-- NSCHED: the 80 schedule words W[0..79] of one block (00 R5, 10 R27). -/
abbrev Schedule := Vector Word 80

/-- All five registers hold `w`. -/
def Regs.all (w : Word) : Regs := ⟨w, w, w, w, w⟩

/-- H[0], H[1], H[2], H[3], H[4] in order (30 R81). -/
def Regs.toList (x : Regs) : List Word := [x.a, x.b, x.c, x.d, x.e]

end Sys2Proof
end

