-- ==== Sys2Proof/Syntax.lean ====
section
/-! DEFINITION. The commands of the core: one constructor per row of spec/opcode_table.json. -/

namespace Sys2Proof

/-- The four commands (30_encoding.md R73). Only ABSORB has an operand: its chunk, whose length is the header's CNT
and whose bytes are unpacked from the data words (30 R77, R78; 44 R172). -/
inductive Instr where
  /-- START (44 R171). -/
  | start
  /-- ABSORB of the bytes c[0..CNT-1] (44 R172 to R174). -/
  | absorb (chunk : List Byte)
  /-- FINALIZE (44 R175). -/
  | finalize
  /-- STATUS (44 R176). -/
  | status
deriving DecidableEq, Repr

/-- The operation codes the opcode map names (30 R73). -/
inductive Opcode where
  | start | absorb | finalize | status
deriving DecidableEq, Repr

/-- The operation a command selects. -/
def Instr.opcode : Instr → Opcode
  | .start => .start
  | .absorb _ => .absorb
  | .finalize => .finalize
  | .status => .status

end Sys2Proof
end

