-- ==== Sys2Proof/WellFormed.lean ====
section
/-! DEFINITION. Which commands have an encoding. -/

namespace Sys2Proof

/-- A chunk has 0 to 65535 bytes, since CNT has 16 bits (30 R77); a longer one cannot be encoded (30 R89). The other
commands have no operand. -/
def Instr.wf : Instr → Bool
  | .start => true
  | .absorb chunk => decide (chunk.length ≤ 65535)
  | .finalize => true
  | .status => true

end Sys2Proof
end

