-- ==== Sys2Proof/Decode.lean ====
section
/-! DEFINITION. Splitting and decoding the words of CMDQ (30_encoding.md R72 to R80), total on every word sequence, and
the encoder (R89). Every bit position here is the spec's (30 R72, R73, R78). -/

namespace Sys2Proof

/-! ### Byte order (00 R9, 20 R52, R55) -/

/-- `be32(b0, b1, b2, b3) = (b0 << 24) | (b1 << 16) | (b2 << 8) | b3` (00 R9). -/
def be32 (b0 b1 b2 b3 : Byte) : Word :=
  (b0.setWidth 32 <<< 24) ||| (b1.setWidth 32 <<< 16) ||| (b2.setWidth 32 <<< 8) ||| b3.setWidth 32

/-- Lane k of a channel word: lane 0 is bits 31:24, lane 1 bits 23:16, lane 2 bits 15:8, lane 3 bits 7:0 (30 R78). -/
def lane (w : Word) (k : Nat) : Byte := (w >>> (24 - 8 * k)).setWidth 8

/-- `bytes_be32(w) = [w[31:24], w[23:16], w[15:8], w[7:0]]` (00 R9). -/
def bytesBE32 (w : Word) : List Byte := [lane w 0, lane w 1, lane w 2, lane w 3]

/-! ### The header (30 R72) -/

/-- `OPC = hdr[31:28]`. -/
def opcField (hdr : Word) : BitVec 4 := hdr.extractLsb' 28 4

/-- `RSV = hdr[27:16]`. -/
def rsvField (hdr : Word) : BitVec 12 := hdr.extractLsb' 16 12

/-- `CNT = hdr[15:0]`. -/
def cntField (hdr : Word) : BitVec 16 := hdr.extractLsb' 0 16

/-- The opcode map (30 R73); `none` on the reserved codes 0x0 and 0x5 to 0xF. -/
def opcodeOf (opc : BitVec 4) : Option Opcode :=
  if opc = 0x1 then some .start
  else if opc = 0x2 then some .absorb
  else if opc = 0x3 then some .finalize
  else if opc = 0x4 then some .status
  else none

/-- How many data words follow the header: `(CNT + 3) div 4` when OPC is ABSORB's, whatever RSV holds, and none
otherwise, whatever the other fields hold (30 R74). -/
def dataWords (hdr : Word) : Nat :=
  if opcField hdr = 0x2 then ((cntField hdr).toNat + 3) / 4 else 0

/-- Why a header is no command: the two causes decoding itself can find (30 R75, R76). -/
inductive HeaderError where
  /-- OPC is 0x0 or 0x5 to 0xF (30 R76). -/
  | illegalOpc
  /-- RSV is not 0, or CNT is not 0 on a header other than ABSORB (30 R75). -/
  | reservedField
deriving DecidableEq, Repr

/-- The checks of one header, in the order of 44 R170: opcode first, then the reserved fields. -/
def checkHeader (hdr : Word) : Except HeaderError Opcode :=
  match opcodeOf (opcField hdr) with
  | none => .error .illegalOpc
  | some o =>
    if rsvField hdr ≠ 0 ∨ (o ≠ .absorb ∧ cntField hdr ≠ 0) then .error .reservedField else .ok o

/-! ### ABSORB's data words (30 R78, R79) -/

/-- The chunk of `cnt` bytes that the data words carry: byte j is lane `j mod 4` of word `j div 4`; the lanes of the
last word beyond byte `cnt - 1` are dropped (30 R78, R79). -/
def unpackChunk (cnt : Nat) (data : List Word) : List Byte := (data.flatMap bytesBE32).take cnt

/-- The data words of a chunk, unused lanes of the last word written as 0x00 (30 R78, R89). -/
def packChunk : List Byte → List Word
  | [] => []
  | [b0] => [be32 b0 0 0 0]
  | [b0, b1] => [be32 b0 b1 0 0]
  | [b0, b1, b2] => [be32 b0 b1 b2 0]
  | b0 :: b1 :: b2 :: b3 :: rest => be32 b0 b1 b2 b3 :: packChunk rest

/-! ### Splitting CMDQ (30 R74) -/

/-- What stands at the head of CMDQ. -/
inductive Decoded where
  /-- Fewer words than the command needs, or none: the core waits (30 R74, 70 R248). -/
  | waiting
  /-- A whole command whose header is no command; the words after it. -/
  | malformed (e : HeaderError) (rest : List Word)
  /-- A whole well-formed command; the words after it. -/
  | command (i : Instr) (rest : List Word)
deriving DecidableEq, Repr

/-- The command a well-formed header and its data words spell. -/
def commandOf (o : Opcode) (hdr : Word) (data : List Word) : Instr :=
  match o with
  | .start => .start
  | .absorb => .absorb (unpackChunk (cntField hdr).toNat data)
  | .finalize => .finalize
  | .status => .status

/-- Splits one command off CMDQ by its header alone, then checks the header (30 R74, R75, R76). The data words of a
malformed ABSORB are consumed with it (30 R75). -/
def decode : List Word → Decoded
  | [] => .waiting
  | hdr :: ws =>
    if ws.length < dataWords hdr then .waiting
    else
      match checkHeader hdr with
      | .error e => .malformed e (ws.drop (dataWords hdr))
      | .ok o => .command (commandOf o hdr (ws.take (dataWords hdr))) (ws.drop (dataWords hdr))

/-! ### Encoding (30 R80, R89) -/

/-- The `match` column of R80: a command's header with CNT = 0. -/
def matchWord : Opcode → Word
  | .start => 0x10000000
  | .absorb => 0x20000000
  | .finalize => 0x30000000
  | .status => 0x40000000

/-- The `mask` column of R80. -/
def maskWord : Opcode → Word
  | .start => 0xFFFFFFFF
  | .absorb => 0xFFFF0000
  | .finalize => 0xFFFFFFFF
  | .status => 0xFFFFFFFF

/-- The header of an ABSORB of `cnt` bytes: `0x20000000 | cnt` (30 R89). -/
def absorbHeader (cnt : Nat) : Word := matchWord .absorb ||| BitVec.ofNat 32 cnt

/-- The words of a command (30 R89), as they stand on CMDQ. -/
def encode : Instr → List Word
  | .start => [matchWord .start]
  | .absorb chunk => absorbHeader chunk.length :: packChunk chunk
  | .finalize => [matchWord .finalize]
  | .status => [matchWord .status]

/-! ### Words given as one number, as spec/opcode_table.json numbers the bits -/

/-- The first `n` 32-bit words of the number `w`: bit 0 of `w` is bit 0 of the first word, bit 32 of `w` is bit 0 of
the second, and so on. -/
def wordsOfNat : Nat → Nat → List Word
  | 0, _ => []
  | n + 1, w => BitVec.ofNat 32 w :: wordsOfNat n (w >>> 32)

/-- The words of the command whose first `nbits` bits are `w`, every later bit being 0: the words `w` gives, then zero
data words up to the length the header asks for (30 R74). -/
def tableWords (nbits w : Nat) : List Word :=
  match wordsOfNat ((nbits + 31) / 32) (w % 2 ^ nbits) with
  | [] => []
  | hdr :: ws => hdr :: (ws ++ List.replicate (dataWords hdr - ws.length) 0)

/-- The command the decoder reads from those words. -/
def decodeTableWord (nbits w : Nat) : Option Instr :=
  match decode (tableWords nbits w) with
  | .waiting => none
  | .malformed _ _ => none
  | .command i _ => some i

end Sys2Proof
end

