-- ==== Sys2Proof/Config.lean ====
section
/-! DEFINITION. What the spec leaves open: the free values of the scratch state that holds no value between commands,
and what a byte of the block buffer that nothing has written reads as. -/

namespace Sys2Proof.Config

/-- FREE VALUE (log 4): what stands in W[0..79] once a compression has discarded it (10 R27, 93 U7). No body, so no
proof can lean on a value of it. -/
opaque freeSchedule : Nat → Schedule

/-- FREE VALUE (log 4): what stands in PADBLK between commands (10 R26, 93 U6). -/
opaque freePadBlock : Nat → Block

/-- FREE VALUE (log 4): the five words from which A..E are filled between compressions (10 R21, 93 U7). -/
opaque freeWork : Nat → Vector Word 5

/-- DESIGN CHOICE (log 3): what an address of the block buffer that nothing has written reads as. The spec leaves it
unspecified (10 R25, 70 R240) and no command reads such a byte (70 R241). -/
def unlistedByte : Byte := 0x00

end Sys2Proof.Config
end

