-- ==== Sys2Proof/Machine/State.lean ====
section
/-! DEFINITION. The state of the core, everything 10_state.md gives it, and its value after reset (70 R240). -/

namespace Sys2Proof.Machine

/-- PHASE, the 2-bit lifecycle register (10 R28). Its codes are `Phase.code`. -/
inductive Phase where
  /-- 0: after reset; no computation started. -/
  | idle
  /-- 1: START accepted; ABSORB and FINALIZE accepted. -/
  | active
  /-- 2: FINALIZE completed; the digest has been returned. -/
  | done
  /-- 3: a command was refused; see REASON. -/
  | faulted
deriving DecidableEq, Repr

/-- REASON, the 4-bit cause of the first fault (10 R29, 60 R210). Its codes are `Reason.code`; the values 5 to 15 are
never written, so the type has none for them (log 7). -/
inductive Reason where
  /-- 0: no fault has occurred. -/
  | none
  /-- 1: header OPC is 0x0 or 0x5 to 0xF. -/
  | illegalOpc
  /-- 2: a reserved header field is not 0. -/
  | reservedField
  /-- 3: the command is not legal in the current phase. -/
  | sequence
  /-- 4: ABSORB with LEN + CNT > N_MAX. -/
  | length
deriving DecidableEq, Repr

/-- A byte store as plain data: the listed addresses with their bytes, in one canonical form (`Memory.wf`); an
address that is not listed reads `Config.unlistedByte`. -/
abbrev Memory := List Host.Cell

/-- `Memory.wf` for addresses from `lo` up. -/
def Memory.wfFrom (lo : Nat) : Memory → Bool
  | [] => true
  | (a, b) :: rest =>
    decide (lo ≤ a) && decide (a < 64) && decide (b ≠ Config.unlistedByte) && Memory.wfFrom (a + 1) rest

/-- The canonical form of the block-buffer space: addresses strictly rising, all of them in 0..63 (20 R50), and no
entry equal to what an unlisted address reads as. -/
def Memory.wf (m : Memory) : Bool := Memory.wfFrom 0 m

/-- The state of the core (10_state.md section 7), plain data. -/
structure State where
  /-- H[0..4], the chained register state (10 R20). -/
  h : Regs
  /-- A..E, the working registers; they hold no value between compressions (10 R21), so a free value (log 4). -/
  work : Regs
  /-- LEN, the Total Length Counter, in bytes (10 R23). -/
  len : BitVec 64
  /-- FILL, the number of valid bytes in BUF (10 R24). -/
  fill : BitVec 6
  /-- BUF[0..63], the partial-block buffer and the core's only address space (10 R25, 20 R50). -/
  buf : Memory
  /-- PADBLK[0..63]; it holds no value between commands (10 R26), so a free value (log 4). -/
  padblk : Block
  /-- W[0..79]; it holds no value between compressions (10 R27), so a free value (log 4). -/
  sched : Schedule
  /-- PHASE (10 R28). -/
  phase : Phase
  /-- REASON (10 R29). -/
  reason : Reason
  /-- CMDQ, head first: words the host has written and the core has not consumed (10 R31). -/
  cmdq : List Word
  /-- RSPQ, head first: words the core has emitted and the host has not read (10 R31). -/
  rspq : List Word
  /-- THE MODEL'S OWN: numbers the free values of A..E, W and PADBLK (log 5). -/
  discards : Nat
deriving DecidableEq, Repr

/-- Why the machine stops with a fault: never. Every fault cause of the spec (60 R210) is an exception whose entry
60 R212 describes, so it is a next state with PHASE = FAULTED; no constructor is needed, and none is safe or unsafe. -/
inductive Fault where
deriving DecidableEq, Repr

/-- Why the model has no meaning for an instruction. -/
inductive Refusal where
  /-- Raised by `exec` alone, for an instruction that has no meaning yet; no arm raises it now. Safe: it stops the
  run. -/
  | notModelled (mnemonic : String)
deriving DecidableEq, Repr

/-- 64 bytes 0x00. -/
def zeroBlock : Block := Vector.replicate 64 0

/-- The machine right after reset (70 R240): PHASE = IDLE, REASON = NONE, FILL = 0, both channels empty. R240 leaves
H, LEN, BUF, PADBLK, W and A..E unspecified; the zeros here are DESIGN CHOICES (log 1, 2, 3). -/
def State.reset : State where
  h := Regs.all 0
  work := Regs.all 0
  len := 0
  fill := 0
  buf := []
  padblk := zeroBlock
  sched := Vector.replicate 80 0
  phase := .idle
  reason := .none
  cmdq := []
  rspq := []
  discards := 0

end Sys2Proof.Machine
end

