-- ==== Sys2Proof/Machine/Ops.lean ====
section
/-! DEFINITION. The named operations over the core's state: the block buffer, the channels, the scratch that is
discarded, dispatch by phase, taking a fault, and the three actions of the host. -/

namespace Sys2Proof.Machine

/-! ### The byte store (20 R50) -/

/-- The byte an address holds. -/
def Memory.read : Memory → Nat → Byte
  | [], _ => Config.unlistedByte
  | (k, b) :: rest, a => if k = a then b else Memory.read rest a

/-- The store without any entry for an address. -/
def Memory.forget : Memory → Nat → Memory
  | [], _ => []
  | (k, b) :: rest, a => if k = a then Memory.forget rest a else (k, b) :: Memory.forget rest a

/-- A new entry, put before the first higher address. -/
def Memory.insertCell : Memory → Nat → Byte → Memory
  | [], a, b => [(a, b)]
  | (k, c) :: rest, a, b =>
    if a < k then (a, b) :: (k, c) :: rest else (k, c) :: Memory.insertCell rest a b

/-- Writes one byte and keeps the canonical form: writing what an unlisted address reads as removes the entry. -/
def Memory.write (m : Memory) (a : Nat) (b : Byte) : Memory :=
  if b = Config.unlistedByte then m.forget a else (m.forget a).insertCell a b

/-- Writes consecutive bytes from an address up. -/
def Memory.writeBytes : Memory → BitVec 6 → List Byte → Memory
  | m, _, [] => m
  | m, addr, b :: bs => Memory.writeBytes (m.write addr.toNat b) (addr + 1) bs

/-- Reads consecutive bytes from an address up. -/
def Memory.readBytes (m : Memory) : BitVec 6 → Nat → List Byte
  | _, 0 => []
  | addr, n + 1 => m.read addr.toNat :: Memory.readBytes m (addr + 1) n

/-- `MemRead(addr, n)`, the n bytes BUF[addr..addr+n-1] (00 R9). An address has six bits, so none lies outside the
block-buffer space (log 9). -/
def State.memRead (s : State) (addr : BitVec 6) (n : Nat) : List Byte := s.buf.readBytes addr n

/-- `MemWrite(addr, n, v)` with n the length of `v` (00 R9). -/
def State.memWrite (s : State) (addr : BitVec 6) (v : List Byte) : State :=
  { s with buf := s.buf.writeBytes addr v }

/-! ### Channels (10 R31) -/

/-- `emit(w)`: appends `w` to RSPQ (30 R71). -/
def State.emit (s : State) (w : Word) : State := { s with rspq := s.rspq ++ [w] }

/-- Emits words in order. -/
def State.emitAll (s : State) (ws : List Word) : State := ws.foldl State.emit s

/-- What is left of CMDQ once a command's words are consumed (30 R74). -/
def State.withCmdq (s : State) (ws : List Word) : State := { s with cmdq := ws }

/-! ### Scratch that holds no value between uses (log 4) -/

/-- W and A..E are discarded after a block's compression (10 R21, R27; 42 R138): both become free values. -/
def State.discardSchedule (s : State) : State :=
  let x := Config.freeWork s.discards
  { s with
    sched := Config.freeSchedule s.discards
    work := ⟨x[0], x[1], x[2], x[3], x[4]⟩
    discards := s.discards + 1 }

/-- PADBLK holds no value between commands (10 R26): a free value. -/
def State.discardPadBlock (s : State) : State :=
  { s with padblk := Config.freePadBlock s.discards, discards := s.discards + 1 }

/-! ### Faults (60_exceptions.md) -/

/-- Fault entry, `raise Fault(reason)`: REASON and PHASE change and nothing else; there is no handler, no vector and
no saved return point (60 R211, R212). -/
def State.raiseFault (s : State) (r : Reason) : State := { s with reason := r, phase := .faulted }

/-- Hardware reset, the only way out of FAULTED: there is no return-from-fault command (60 R216, 70 R240). The
items R240 leaves unspecified take the values `State.reset` names (log 1, 2, 3); the counter of free values goes on
(log 5). -/
def State.hardwareReset (s : State) : State := { State.reset with discards := s.discards }

/-- The REASON of a header that is no command (60 R210). -/
def reasonOf : HeaderError → Reason
  | .illegalOpc => .illegalOpc
  | .reservedField => .reservedField

/-- A whole command whose header is no command: discarded while FAULTED, a fault otherwise (44 R170). -/
def State.rejectHeader (s : State) (e : HeaderError) : State :=
  if s.phase = .faulted then s else s.raiseFault (reasonOf e)

/-! ### Dispatch by phase (44 R170) -/

/-- The LEGAL table of R170. Its FAULTED column is R170's first test: STATUS alone is executed there. -/
def legal : Opcode → Phase → Bool
  | .start, .idle => true
  | .start, .active => false
  | .start, .done => false
  | .start, .faulted => false
  | .absorb, .idle => false
  | .absorb, .active => true
  | .absorb, .done => false
  | .absorb, .faulted => false
  | .finalize, .idle => false
  | .finalize, .active => true
  | .finalize, .done => false
  | .finalize, .faulted => false
  | .status, .idle => true
  | .status, .active => true
  | .status, .done => true
  | .status, .faulted => true

/-- What the core does with a well-formed command (44 R170): it carries out a legal one, discards an illegal one while
FAULTED, and raises SEQUENCE for it in any other phase. -/
def State.dispatch (s : State) (o : Opcode) (effect : State → State) : State :=
  if legal o s.phase then effect s
  else if s.phase = .faulted then s
  else s.raiseFault .sequence

/-! ### The host's side of the channels (10 R31, 44 R180; log 10, 12) -/

/-- The host writes words to the tail of CMDQ (30 R70). -/
def State.hostWrite (s : State) (ws : List Word) : State := { s with cmdq := s.cmdq ++ ws }

/-- The host reads RSPQ: that word is removed and nothing else changes (20 R58). -/
def State.hostRead (s : State) : Option Word × State := (s.rspq.head?, { s with rspq := s.rspq.tail })

end Sys2Proof.Machine
end

