-- ==== Sys2Proof/Machine/Operands.lean ====
section
/-! DEFINITION. The forms in which the rules take bytes: a block from a byte list or from BUF, a schedule word from a
block, the 64-bit footer (00 R9; 20 R52, R53; 41 R120). The one operand field of the encoding, CNT with its chunk, is
unpacked in Sys2Proof/Decode.lean (30 R77, R78). -/

namespace Sys2Proof.Machine

/-- n bytes 0x00. -/
def zeros (n : Nat) : List Byte := List.replicate n 0x00

/-- `bytes_be64(v)`: the 8 bytes of a 64-bit value, most significant byte first (00 R9). -/
def bytesBE64 (v : BitVec 64) : List Byte :=
  [(v >>> 56).setWidth 8, (v >>> 48).setWidth 8, (v >>> 40).setWidth 8, (v >>> 32).setWidth 8,
    (v >>> 24).setWidth 8, (v >>> 16).setWidth 8, (v >>> 8).setWidth 8, v.setWidth 8]

/-- The 64 bytes of a byte list from an offset up, as a block: `l[off..off+63]` (44 R178, 43 R155). -/
def blockAt (l : List Byte) (off : Nat) : Block := Vector.ofFn fun j : Fin 64 => l.getD (off + j) 0x00

/-- BUF[0..63] as a block (44 R174). -/
def State.bufBlock (s : State) : Block := blockAt (s.memRead 0 64) 0

/-- Byte j of a block. -/
def Block.byte (blk : Block) (j : Nat) : Byte := blk.toList.getD j 0x00

/-- `be32(blk[4t], blk[4t+1], blk[4t+2], blk[4t+3])` (41 R120, 20 R52). -/
def Block.word (blk : Block) (t : Nat) : Word :=
  be32 (Block.byte blk (4 * t)) (Block.byte blk (4 * t + 1)) (Block.byte blk (4 * t + 2)) (Block.byte blk (4 * t + 3))

/-- W[t]. -/
def Schedule.word (w : Schedule) (t : Nat) : Word := w.toList.getD t 0

end Sys2Proof.Machine
end

