-- ==== Sys2Proof/Machine/Primitives.lean ====
section
/-! DEFINITION. The bit and word primitives (40_primitives.md). All are pure functions of their operands (R106). -/

namespace Sys2Proof.Machine

/-- `ROTL(x, n) = ((x << n) | (x >> (32 - n)))[31:0]` for 1 ≤ n ≤ 31 (40 R100); no other amount is used (93 U8,
log 13). -/
def rotl (x : Word) (n : Nat) : Word := (x <<< n) ||| (x >>> (32 - n))

/-- `ROTR(x, n) = ((x >> n) | (x << (32 - n)))[31:0]` for 1 ≤ n ≤ 31 (40 R101); no rule uses it. -/
def rotr (x : Word) (n : Nat) : Word := (x >>> n) ||| (x <<< (32 - n))

/-- `Ch(b, c, d) = (b & c) | (~b & d)` (40 R102). -/
def ch (b c d : Word) : Word := (b &&& c) ||| (~~~b &&& d)

/-- `Parity(b, c, d) = b ^ c ^ d` (40 R103). -/
def parity (b c d : Word) : Word := b ^^^ c ^^^ d

/-- `Maj(b, c, d) = (b & c) ^ (b & d) ^ (c & d)` (40 R104). -/
def maj (b c d : Word) : Word := (b &&& c) ^^^ (b &&& d) ^^^ (c &&& d)

/-- `x +32 y = (x + y) mod 2^32`; the carry is recorded nowhere (40 R105, 10 R33). -/
def add32 (x y : Word) : Word := BitVec.ofNat 32 (x.toNat + y.toNat)

end Sys2Proof.Machine
end

