-- ==== Sys2Proof/Machine/Expander.lean ====
section
/-! DEFINITION. The Message Schedule Expander (41_schedule_expander.md). -/

namespace Sys2Proof.Machine

/-- `ROTL(W[t-3] ^ W[t-8] ^ W[t-14] ^ W[t-16], 1)` (41 R121). -/
def nextWord (w : Schedule) (t : Nat) : Word :=
  rotl (Schedule.word w (t - 3) ^^^ Schedule.word w (t - 8) ^^^ Schedule.word w (t - 14) ^^^ Schedule.word w (t - 16)) 1

/-- `for t in start..start+n-1`: W[t] <- nextWord, in increasing order (41 R121). -/
def expandFrom : Nat → Nat → Schedule → Schedule
  | 0, _, w => w
  | n + 1, t, w => expandFrom n (t + 1) (w.setIfInBounds t (nextWord w t))

/-- W[0..15] from the block's bytes (41 R120); the words above are written by `expandFrom`. -/
def loadWords (blk : Block) : Schedule := Vector.ofFn fun t : Fin 80 => if t.val < 16 then Block.word blk t else 0

/-- `EXPAND : Block(64 bytes) -> Schedule(80 × 32-bit words)` (41 R123). -/
@[irreducible] def expand (blk : Block) : Schedule := expandFrom 64 16 (loadWords blk)

end Sys2Proof.Machine
end

