-- ==== Sys2Proof/Machine/Compression.lean ====
section
/-! DEFINITION. The Compression Round Engine (42_compression.md) and COMPRESS_BLOCK on the state. -/

namespace Sys2Proof.Machine

/-- The initial values of H[0..4] (10 R22); constants, not state (10 R34). -/
def initialValues : Regs := ⟨0x67452301, 0xEFCDAB89, 0x98BADCFE, 0x10325476, 0xC3D2E1F0⟩

/-- f_r, the round function of round r (42 R131). -/
def roundFunction (r : Nat) (b c d : Word) : Word :=
  match r with
  | 0 => ch b c d
  | 1 => parity b c d
  | 2 => maj b c d
  | _ => parity b c d

/-- K_r, the constant of round r (42 R131). -/
def roundConstant (r : Nat) : Word :=
  match r with
  | 0 => 0x5A827999
  | 1 => 0x6ED9EBA1
  | 2 => 0x8F1BBCDC
  | _ => 0xCA62C1D6

/-- `T = ROTL(A, 5) +32 f_r(B, C, D) +32 E +32 K_r +32 W[w]`, r = w div 20 (42 R132). -/
def stepTemp (sched : Schedule) (w : Nat) (x : Regs) : Word :=
  add32 (add32 (add32 (add32 (rotl x.a 5) (roundFunction (w / 20) x.b x.c x.d)) x.e) (roundConstant (w / 20)))
    (Schedule.word sched w)

/-- Step w: `E <- D; D <- C; C <- ROTL(B, 30); B <- A; A <- T`, all from the values before the step (42 R133). -/
def roundStep (sched : Schedule) (w : Nat) (x : Regs) : Regs :=
  ⟨stepTemp sched w x, x.a, rotl x.b 30, x.c, x.d⟩

/-- Steps w, w+1, ..., w+n-1, each once, in that order (42 R135). -/
def runSteps (sched : Schedule) : Nat → Nat → Regs → Regs
  | 0, _, x => x
  | n + 1, w, x => runSteps sched n (w + 1) (roundStep sched w x)

/-- The fold: the pre-round state plus the registers after step 79, component by component (42 R137). -/
def fold (h x : Regs) : Regs :=
  ⟨add32 h.a x.a, add32 h.b x.b, add32 h.c x.c, add32 h.d x.d, add32 h.e x.e⟩

/-- The chained state after one block, from the chained state before it (42 R130, R138). -/
@[irreducible] def compress (h : Regs) (blk : Block) : Regs := fold h (runSteps (expand blk) 80 0 h)

/-- What a compression leaves in W, A..E and H before W and A..E are discarded (42 R138). -/
def State.withCompression (s : State) (w : Schedule) (x h : Regs) : State := { s with sched := w, work := x, h := h }

/-- `COMPRESS_BLOCK(blk)` (42 R138): W is expanded, A..E are loaded from H (R134) and run through the 80 steps, H is
folded, and W and A..E are discarded. -/
@[irreducible] def State.compressBlock (s : State) (blk : Block) : State :=
  let w := expand blk
  let x := runSteps w 80 0 s.h
  (s.withCompression w x (fold s.h x)).discardSchedule

/-- Blocks compressed in order (20 R60). -/
def State.compressBlocks (s : State) (blks : List Block) : State := blks.foldl State.compressBlock s

end Sys2Proof.Machine
end

