-- ==== Sys2Proof/Machine/Flags.lean ====
section
/-! DEFINITION. The core has no flags and no condition codes (10 R33): what a command leaves to be observed are the codes
of PHASE and REASON and the status word, a view (10 R28, R29, R32). -/

namespace Sys2Proof.Machine

/-- The 2-bit code of PHASE (10 R28). -/
def Phase.code : Phase → BitVec 2
  | .idle => 0
  | .active => 1
  | .done => 2
  | .faulted => 3

/-- The 4-bit code of REASON (10 R29, 60 R210). -/
def Reason.code : Reason → BitVec 4
  | .none => 0
  | .illegalOpc => 1
  | .reservedField => 2
  | .sequence => 3
  | .length => 4

/-- `status = zext_32({FILL, REASON, 0b00, PHASE})` (10 R32). -/
def statusOf (fill : BitVec 6) (reason : Reason) (phase : Phase) : Word :=
  (fill ++ reason.code ++ (0 : BitVec 2) ++ phase.code).setWidth 32

/-- The status word, assembled at the moment it is asked for (10 R32). -/
def State.statusWord (s : State) : Word := statusOf s.fill s.reason s.phase

end Sys2Proof.Machine
end

