-- ==== Sys2Proof/Machine/Formatter.lean ====
section
/-! DEFINITION. The Digest Formatter (45_digest_formatter.md), and the host-side rendering given at its interface. -/

namespace Sys2Proof.Machine

/-- `SERIALIZE(H)`: the 20 digest bytes, each register most significant byte first, registers in order (45 R200). -/
def serialize (h : Regs) : List Byte := h.toList.flatMap bytesBE32

/-- The v-th character of `0123456789abcdef` (45 R202). -/
def hexDigit (v : Nat) : Char :=
  ['0', '1', '2', '3', '4', '5', '6', '7', '8', '9', 'a', 'b', 'c', 'd', 'e', 'f'].getD v '0'

/-- `toHex`, host side, outside the core: two lowercase characters per byte, high nibble first (45 R202). -/
def toHex (digest : List Byte) : List Char :=
  digest.flatMap fun b => [hexDigit (b.toNat / 16), hexDigit (b.toNat % 16)]

end Sys2Proof.Machine
end

