-- ==== Sys2Proof/Machine/Framer.lean ====
section
/-! DEFINITION. The Padding/Length Framer (43_padding_framer.md). -/

namespace Sys2Proof.Machine

/-- N_MAX = 2^61 - 1 bytes (00 R6). -/
def nMax : Nat := 2 ^ 61 - 1

/-- The marker byte (00 R5). -/
def marker : Byte := 0x80

/-- `P = 63 - ((N + 8) mod 64)` (43 R152). -/
def zeroCount (n : Nat) : Nat := 63 - (n + 8) % 64

/-- `bytes_be64(8·N)`, the length footer (43 R153). -/
def footer (len : BitVec 64) : List Byte := bytesBE64 (8 * len)

/-- `PAD(N) = [0x80] ++ zeros(P) ++ bytes_be64(8·N)` (43 R151). -/
def pad (n : Nat) : List Byte := marker :: (zeros (zeroCount n) ++ footer (BitVec.ofNat 64 n))

/-- r = N mod 64, the number of bytes in the partial block (43_padding_framer.md). -/
def State.tailLen (s : State) : Nat := s.len.toNat % 64

/-- `FRAME(N)` (43 R155): the final blocks, and BUF and PADBLK as it leaves them. In phase ACTIVE r = FILL (10 R24). -/
def State.frame (s : State) : List Block × State :=
  let r := s.tailLen
  let s₁ := s.memWrite (BitVec.ofNat 6 r) [marker]
  if r ≤ 55 then
    let s₂ := s₁.memWrite (BitVec.ofNat 6 (r + 1)) (zeros (55 - r))
    let s₃ := s₂.memWrite 56 (footer s.len)
    ([s₃.bufBlock], s₃)
  else
    let s₂ := s₁.memWrite (BitVec.ofNat 6 (r + 1)) (zeros (63 - r))
    let second := blockAt (zeros 56 ++ footer s.len) 0
    ([s₂.bufBlock, second], { s₂ with padblk := second })

end Sys2Proof.Machine
end

