-- ==== Sys2Proof/Machine/Commands.lean ====
section
/-! DEFINITION. The meanings of the four commands (44_block_framer_commands.md). -/

namespace Sys2Proof.Machine

/-- What START does when it is legal (44 R171). BUF is not cleared. -/
def startEffect (s : State) : State :=
  { s with h := initialValues, len := 0, fill := 0, phase := .active }

/-- START (44 R171). -/
def execStart (s : State) : Host.Outcome State Fault Refusal :=
  .next (s.dispatch .start startEffect)

/-- One byte of a chunk: `MemWrite(FILL, 1, [c]); FILL <- FILL + 1; if FILL = 64: COMPRESS_BLOCK(BUF[0..63]);
FILL <- 0` (44 R174). -/
def State.absorbByte (s : State) (c : Byte) : State :=
  let s₁ := s.memWrite s.fill [c]
  let n := s.fill.toNat + 1
  if n = 64 then { s₁.compressBlock s₁.bufBlock with fill := 0 }
  else { s₁ with fill := BitVec.ofNat 6 n }

/-- What ABSORB does when it is legal (44 R173, R174): the whole chunk is checked against N_MAX before any byte is
absorbed. -/
def absorbEffect (chunk : List Byte) (s : State) : State :=
  if s.len.toNat + chunk.length > nMax then s.raiseFault .length
  else
    let s₁ := chunk.foldl State.absorbByte s
    { s₁ with len := s₁.len + BitVec.ofNat 64 chunk.length }

/-- ABSORB (44 R172 to R174). -/
def execAbsorb (chunk : List Byte) (s : State) : Host.Outcome State Fault Refusal :=
  .next (s.dispatch .absorb (absorbEffect chunk))

/-- What FINALIZE does when it is legal (44 R175). -/
def finalizeEffect (s : State) : State :=
  let framed := s.frame
  let s₁ := (framed.2.compressBlocks framed.1).discardPadBlock
  State.emitAll { s₁ with phase := .done } s₁.h.toList

/-- FINALIZE (44 R175). -/
def execFinalize (s : State) : Host.Outcome State Fault Refusal :=
  .next (s.dispatch .finalize finalizeEffect)

/-- What STATUS does, in every phase (44 R176). -/
def statusEffect (s : State) : State := s.emit s.statusWord

/-- STATUS (44 R176). -/
def execStatus (s : State) : Host.Outcome State Fault Refusal :=
  .next (s.dispatch .status statusEffect)

end Sys2Proof.Machine
end

