-- ==== Sys2Proof/Machine/Dispatch.lean ====
section
/-! DEFINITION. One arm per command. -/

namespace Sys2Proof.Machine

/-- The meaning of a command whose words have been taken off CMDQ. -/
def exec (i : Instr) (s : State) : Host.Outcome State Fault Refusal :=
  match i with
  | .start => Sys2Proof.Machine.execStart s
  | .absorb chunk => Sys2Proof.Machine.execAbsorb chunk s
  | .finalize => Sys2Proof.Machine.execFinalize s
  | .status => Sys2Proof.Machine.execStatus s

end Sys2Proof.Machine
end

