-- ==== Sys2Proof/Machine/Step.lean ====
section
/-! DEFINITION. One step of the core: one command consumed whole from CMDQ and carried out (10 R30, 30 R74). -/

namespace Sys2Proof.Machine

/-- One step. The core waits, its state unchanged, while CMDQ holds no whole command (30 R74, 70 R242, R248; log 6);
otherwise the command's words are consumed and the command is carried out or its header rejected (44 R170). -/
def step (s : State) : Host.Outcome State Fault Refusal :=
  match decode s.cmdq with
  | .waiting => .next s
  | .malformed e rest => .next ((s.withCmdq rest).rejectHeader e)
  | .command i rest => exec i (s.withCmdq rest)

/-- The state with the command `tableWords nbits w` at the head of CMDQ, before whatever stands there (log 10). -/
def State.withFetchWord (s : State) (nbits w : Nat) : State :=
  { s with cmdq := tableWords nbits w ++ s.cmdq }

end Sys2Proof.Machine
end

