-- ==== Sys2Proof/Machine/Digest.lean ====
section
/-! DEFINITION. The digest function SHA1(m) (44 R178) and the pseudo-command DIGEST (30 R91): what the commands together
compute, written without the core's state. -/

namespace Sys2Proof.Machine

/-- The chained state after compressing, in order and from `h`, the first k blocks of a byte list (44 R178). -/
def chain (h : Regs) (l : List Byte) : Nat → Regs
  | 0 => h
  | k + 1 => compress (chain h l k) (blockAt l (64 * k))

/-- M = m ++ PAD(N) (44 R178). -/
def padded (m : List Byte) : List Byte := m ++ pad m.length

/-- k = ⌈(N + 9)/64⌉ (43 R154, R156). -/
def blockCount (n : Nat) : Nat := (n + 9 + 63) / 64

/-- H_k (44 R178). -/
def sha1State (m : List Byte) : Regs := chain initialValues (padded m) (blockCount m.length)

/-- `SHA1(m)`, the 20 digest bytes (44 R178). -/
def sha1 (m : List Byte) : List Byte := serialize (sha1State m)

/-- Consecutive slices of 65535 bytes, the last one holding the remainder. -/
def slices : Nat → List Byte → List (List Byte)
  | 0, _ => []
  | n + 1, m => m.take 65535 :: slices n (m.drop 65535)

/-- `DIGEST m`: START, ABSORBs of consecutive slices of 65535 bytes and none when `m` is empty, FINALIZE (30 R91). -/
def digestCommands (m : List Byte) : List Instr :=
  .start :: ((slices ((m.length + 65534) / 65535) m).map .absorb ++ [.finalize])

end Sys2Proof.Machine
end

