-- ==== Sys2Proof/Machine/Assembler.lean ====
section
/-! DEFINITION. The assembler of command programs (30_encoding.md R88 to R91): host software the spec gives, outside the
core. It works on lists of characters. -/

namespace Sys2Proof.Machine.Asm

/-- A token of a line: a bare word, or the characters between two double quotes. -/
inductive Token where
  | bare (cs : List Char)
  | quoted (cs : List Char)
deriving DecidableEq, Repr

/-- Where the scanner of a line stands; the characters of the token it is in are in reverse. -/
inductive Scan where
  | gap
  | bare (acc : List Char)
  | quoted (acc : List Char)
deriving DecidableEq, Repr

/-- DESIGN CHOICE (log 15): beside the space of 30 R88, a tab and a carriage return count as a blank. -/
def isBlank (c : Char) : Bool := c == ' ' || c == '\t' || c == '\r'

/-- The tokens of a line; `;` outside quotes starts a comment; an open quote has no tokens (30 R88).
DESIGN CHOICE (log 15): a quote begins and ends a token whether or not a blank stands beside it, so `ABSORB"abc"` and
`repeat"ab"2` read as with blanks. -/
def scan : Scan → List Char → Option (List Token)
  | .gap, [] => some []
  | .bare acc, [] => some [.bare acc.reverse]
  | .quoted _, [] => none
  | .gap, c :: cs =>
    if c == ';' then some []
    else if isBlank c then scan .gap cs
    else if c == '"' then scan (.quoted []) cs
    else scan (.bare [c]) cs
  | .bare acc, c :: cs =>
    if c == ';' then some [.bare acc.reverse]
    else if isBlank c then (scan .gap cs).map (.bare acc.reverse :: ·)
    else if c == '"' then (scan (.quoted []) cs).map (.bare acc.reverse :: ·)
    else scan (.bare (c :: acc)) cs
  | .quoted acc, c :: cs =>
    if c == '"' then (scan .gap cs).map (.quoted acc.reverse :: ·)
    else scan (.quoted (c :: acc)) cs

/-- The value of a digit in base 16; DESIGN CHOICE (log 15): lower case beside the
upper case of 95_test_vectors.md. -/
def digitValue (c : Char) : Option Nat :=
  if '0'.toNat ≤ c.toNat ∧ c.toNat ≤ '9'.toNat then some (c.toNat - '0'.toNat)
  else if 'A'.toNat ≤ c.toNat ∧ c.toNat ≤ 'F'.toNat then some (c.toNat - 'A'.toNat + 10)
  else if 'a'.toNat ≤ c.toNat ∧ c.toNat ≤ 'f'.toNat then some (c.toNat - 'a'.toNat + 10)
  else none

/-- The value of the digits `cs` in a base, after `acc`. -/
def digits (base : Nat) : Nat → List Char → Option Nat
  | acc, [] => some acc
  | acc, c :: cs =>
    match digitValue c with
    | none => none
    | some v => if v < base then digits base (acc * base + v) cs else none

/-- `0x` and exactly n hexadecimal digits. -/
def hexNumber (n : Nat) : List Char → Option Nat
  | '0' :: 'x' :: cs => if cs.length = n then digits 16 0 cs else none
  | _ => none

/-- One or more digits; DESIGN CHOICE (log 15): N is decimal, leading zeros allowed. -/
def decimal (cs : List Char) : Option Nat := if cs = [] then none else digits 10 0 cs

/-- The ASCII codes of a string (00 R10); none when a character is not ASCII. -/
def ascii : List Char → Option (List Byte)
  | [] => some []
  | c :: cs => if c.toNat < 128 then (ascii cs).map (BitVec.ofNat 8 c.toNat :: ·) else none

/-- The byte values after the keyword `bytes`. -/
def byteValues : List Token → Option (List Byte)
  | [] => some []
  | .bare cs :: ts =>
    match hexNumber 2 cs, byteValues ts with
    | some v, some bs => some (BitVec.ofNat 8 v :: bs)
    | _, _ => none
  | .quoted _ :: _ => none

/-- A `<chunk>` (30 R88): a string, `bytes 0xHH ...`, `zeros N`, or `repeat "s" N`. -/
def chunk : List Token → Option (List Byte)
  | [.quoted s] => ascii s
  | [.bare kw, .bare n] =>
    if kw = ['z', 'e', 'r', 'o', 's'] then (decimal n).map zeros
    else if kw = ['b', 'y', 't', 'e', 's'] then byteValues [.bare n]
    else none
  | [.bare kw, .quoted s, .bare n] =>
    if kw = ['r', 'e', 'p', 'e', 'a', 't'] then
      match ascii s, decimal n with
      | some bs, some k => some (List.replicate k bs).flatten
      | _, _ => none
    else none
  | .bare kw :: ts => if kw = ['b', 'y', 't', 'e', 's'] then byteValues ts else none
  | _ => none

/-- The words of one command; an ABSORB of more than 65535 bytes is refused (30 R89). -/
def command (i : Instr) : Option (List Word) := if i.wf then some (encode i) else none

/-- The words of `DIGEST m` (30 R91). -/
def digest (m : List Byte) : List Word := (digestCommands m).flatMap encode

/-- The words of one line's tokens (30 R88 to R91). -/
def line : List Token → Option (List Word)
  | [] => some []
  | .quoted _ :: _ => none
  | .bare op :: ts =>
    if op = ['S', 'T', 'A', 'R', 'T'] ∧ ts = [] then command .start
    else if op = ['F', 'I', 'N', 'A', 'L', 'I', 'Z', 'E'] ∧ ts = [] then command .finalize
    else if op = ['S', 'T', 'A', 'T', 'U', 'S'] ∧ ts = [] then command .status
    else if op = ['A', 'B', 'S', 'O', 'R', 'B'] then
      match chunk ts with
      | some c => command (.absorb c)
      | none => none
    else if op = ['D', 'I', 'G', 'E', 'S', 'T'] then (chunk ts).map digest
    else if op = ['.', 'w', 'o', 'r', 'd'] then
      match ts with
      | [.bare w] => (hexNumber 8 w).map fun v => [BitVec.ofNat 32 v]
      | _ => none
    else none

/-- The lines of a text. -/
def splitLines : List Char → List (List Char)
  | [] => [[]]
  | c :: cs =>
    match splitLines cs with
    | [] => [[c]]
    | l :: ls => if c == '\n' then [] :: l :: ls else (c :: l) :: ls

/-- The words of all lines, in order; none when one line is no line of the syntax. -/
def assembleLines : List (List Char) → Option (List Word)
  | [] => some []
  | l :: ls =>
    match (scan .gap l).bind line, assembleLines ls with
    | some ws, some rest => some (ws ++ rest)
    | _, _ => none

/-- The words a program text places on CMDQ (30 R88). -/
def assemble (text : List Char) : Option (List Word) := assembleLines (splitLines text)

end Sys2Proof.Machine.Asm
end

