-- ==== Sys2Proof/Safety.lean ====
section
/-! DEFINITION. The terms in which claims about the core are made: its invariant, the message a state holds, the states
the host cannot tell apart, sequences of commands, and the end of a computation. -/

namespace Sys2Proof.Machine

/-- What every state that a run can reach has. -/
structure State.Inv (s : State) : Prop where
  /-- BUF is in canonical form and lists addresses 0..63 only (20 R50). -/
  memory : s.buf.wf = true
  /-- While a computation is open or done, LEN ≤ N_MAX and FILL = LEN mod 64 (10 R23, R24). -/
  length : s.phase = .active ∨ s.phase = .done → s.len.toNat ≤ nMax ∧ s.fill.toNat = s.len.toNat % 64
  /-- FILL is 0 until START (10 R24, 70 R240). -/
  idle : s.phase = .idle → s.fill = 0
  /-- REASON holds a cause exactly in FAULTED (10 R29). -/
  reason : s.phase = .faulted ↔ s.reason ≠ .none

/-- The ACTIVE state has absorbed exactly the bytes `m` (44 R177): LEN = len(m); FILL = len(m) mod 64; BUF holds the
bytes after the last complete block; H is the chained state after the complete blocks. -/
structure State.Holds (s : State) (m : List Byte) : Prop where
  active : s.phase = .active
  len : s.len.toNat = m.length
  limit : m.length ≤ nMax
  fill : s.fill.toNat = m.length % 64
  buf : ∀ j < m.length % 64, s.buf.read j = m.getD (64 * (m.length / 64) + j) 0
  h : s.h = chain initialValues m (m.length / 64)

/-- Two states that agree on everything the spec lets a command read: PHASE, REASON, FILL and the channels always; H,
LEN and the valid bytes of BUF while ACTIVE (10 R35, 70 R241; 93 U5, U6, U7). -/
structure State.Alike (s t : State) : Prop where
  phase : s.phase = t.phase
  reason : s.reason = t.reason
  fill : s.fill = t.fill
  cmdq : s.cmdq = t.cmdq
  rspq : s.rspq = t.rspq
  active : s.phase = .active →
    s.h = t.h ∧ s.len = t.len ∧ ∀ j < s.fill.toNat, s.buf.read j = t.buf.read j

/-- A computation has ended: FINALIZE has executed, PHASE = DONE and the five words of H are on RSPQ, one after the
other, and no command waits for words (70 R249). That it no longer holds once the host has read one of the words is the
model's reading of "on RSPQ" (log 16, DEDUCED). -/
structure State.ended (s : State) : Prop where
  done : s.phase = .done
  words : s.h.toList <:+: s.rspq
  idle : decode s.cmdq = .waiting → s.cmdq = []

/-- A computation has failed (70 R249). -/
def State.failed (s : State) : Prop := s.phase = .faulted

/-- Commands carried out one after the other, each whole (20 R60). -/
def execAll : List Instr → State → Host.Outcome State Fault Refusal
  | [], s => .next s
  | i :: is, s =>
    match exec i s with
    | .next t => execAll is t
    | .fault r => .fault r
    | .refused r => .refused r

end Sys2Proof.Machine
end

