-- ==== Sys2Proof/Certificates/Slice0/Obligations.lean ====
section
/-! DEFINITION. The statements for the provers. Each docstring names the rule of spec/ it rests on; OBLIGATIONS.json lists
them. -/

open Sys2Proof Sys2Proof.Machine

/-! ### Primitives, schedule, compression (40, 41, 42) -/

/-- 40 R100, R101; 93 G2: for the amounts 1 to 31 ROTL is the cyclic left shift, and ROTR(x, n) is ROTL(x, 32 - n). -/
def Obligations.RotationsAreCyclic : Prop :=
  ∀ (x : Word) (n : Nat), 1 ≤ n → n ≤ 31 →
    (∀ i < 32, (rotl x n).getLsbD i = x.getLsbD ((i + (32 - n)) % 32)) ∧ rotr x n = rotl x (32 - n)

/-- 40 R102, R103, R104, bit by bit: Ch selects c's bit where b's is 1 and d's where it is 0, Parity is the exclusive
or, Maj is 1 when at least two operand bits are 1. -/
def Obligations.RoundFunctionsBitByBit : Prop :=
  ∀ (b c d : Word), ∀ i < 32,
    (ch b c d).getLsbD i = (if b.getLsbD i then c.getLsbD i else d.getLsbD i) ∧
    (parity b c d).getLsbD i = (b.getLsbD i ^^ (c.getLsbD i ^^ d.getLsbD i)) ∧
    (maj b c d).getLsbD i =
      ((b.getLsbD i && c.getLsbD i) || (b.getLsbD i && d.getLsbD i) || (c.getLsbD i && d.getLsbD i))

/-- 41 R120: W[t] is four consecutive block bytes, big-endian, for t in 0..15. -/
def Obligations.ScheduleStartsFromTheBlock : Prop :=
  ∀ (blk : Block), ∀ t < 16,
    Schedule.word (expand blk) t =
      ((Block.byte blk (4 * t)).setWidth 32 <<< 24) ||| ((Block.byte blk (4 * t + 1)).setWidth 32 <<< 16) |||
      ((Block.byte blk (4 * t + 2)).setWidth 32 <<< 8) ||| (Block.byte blk (4 * t + 3)).setWidth 32

/-- 41 R121: the recurrence of W[16..79]. -/
def Obligations.ScheduleRecurrence : Prop :=
  ∀ (blk : Block) (t : Nat), 16 ≤ t → t ≤ 79 →
    Schedule.word (expand blk) t =
      rotl (Schedule.word (expand blk) (t - 3) ^^^ Schedule.word (expand blk) (t - 8) ^^^
        Schedule.word (expand blk) (t - 14) ^^^ Schedule.word (expand blk) (t - 16)) 1

/-- 41 R122, R123: rules R120 and R121 determine the schedule, so any way of computing it gives the same words. -/
def Obligations.ScheduleIsDetermined : Prop :=
  ∀ (blk : Block) (w : Schedule),
    (∀ t < 16, Schedule.word w t = Block.word blk t) →
    (∀ t, 16 ≤ t → t ≤ 79 →
      Schedule.word w t =
        rotl (Schedule.word w (t - 3) ^^^ Schedule.word w (t - 8) ^^^ Schedule.word w (t - 14) ^^^
          Schedule.word w (t - 16)) 1) →
    w = expand blk

/-- 42 R131, R132, R133: one step, with the function and constant of its round; `+` is modulo 2^32. -/
def Obligations.StepOfEachRound : Prop :=
  ∀ (sched : Schedule) (x : Regs), ∀ w < 80,
    roundStep sched w x =
      ⟨rotl x.a 5 +
          (if w < 20 then (x.b &&& x.c) ||| (~~~x.b &&& x.d)
            else if w < 40 then x.b ^^^ x.c ^^^ x.d
            else if w < 60 then (x.b &&& x.c) ^^^ (x.b &&& x.d) ^^^ (x.c &&& x.d)
            else x.b ^^^ x.c ^^^ x.d) +
          x.e +
          (if w < 20 then 0x5A827999 else if w < 40 then 0x6ED9EBA1 else if w < 60 then 0x8F1BBCDC else 0xCA62C1D6) +
          Schedule.word sched w,
        x.a, rotl x.b 30, x.c, x.d⟩

/-- 42 R134, R135, R137: the registers are loaded from H, the steps 0, 1, ..., 79 follow one another, and the pre-round
state is added to what step 79 leaves. -/
def Obligations.CompressionIsEightyStepsAndFold : Prop :=
  ∀ (h : Regs) (blk : Block),
    ∃ x : Nat → Regs,
      x 0 = h ∧ (∀ w < 80, x (w + 1) = roundStep (expand blk) w (x w)) ∧
      compress h blk =
        ⟨h.a + (x 80).a, h.b + (x 80).b, h.c + (x 80).c, h.d + (x 80).d, h.e + (x 80).e⟩

/-- 42 R139: COMPRESS_BLOCK writes H (and the scratch W, A..E it discards) and nothing else. -/
def Obligations.CompressionWritesOnlyH : Prop :=
  ∀ (s : State) (blk : Block),
    (s.compressBlock blk).h = compress s.h blk ∧ (s.compressBlock blk).len = s.len ∧
    (s.compressBlock blk).fill = s.fill ∧ (s.compressBlock blk).buf = s.buf ∧
    (s.compressBlock blk).padblk = s.padblk ∧ (s.compressBlock blk).phase = s.phase ∧
    (s.compressBlock blk).reason = s.reason ∧ (s.compressBlock blk).cmdq = s.cmdq ∧
    (s.compressBlock blk).rspq = s.rspq

/-! ### Framing and formatting (43, 45) -/

/-- 43 R152: the closed form of P is the least P that fills the block, lies in 0..63, and is 55 - r or 119 - r. -/
def Obligations.ZeroCountIsLeast : Prop :=
  ∀ n : Nat,
    (n + 1 + zeroCount n + 8) % 64 = 0 ∧ (∀ p, (n + 1 + p + 8) % 64 = 0 → zeroCount n ≤ p) ∧ zeroCount n ≤ 63 ∧
    zeroCount n = (if n % 64 ≤ 55 then 55 - n % 64 else 119 - n % 64)

/-- 43 R151, R153, R156: PAD(N) has P + 9 bytes: 0x80, then P bytes 0x00, then, for N ≤ N_MAX, the eight bytes of 8·N,
most significant first; and the padded message, the message followed by PAD(N), is ⌈(N + 9)/64⌉ whole blocks. -/
def Obligations.PaddedMessageIsWholeBlocks : Prop :=
  ∀ m : List Byte,
    (pad m.length).length = zeroCount m.length + 9 ∧
    (pad m.length).getD 0 0 = 0x80 ∧
    (∀ k, 1 ≤ k → k ≤ zeroCount m.length → (pad m.length).getD k 0xFF = 0x00) ∧
    (m.length ≤ 2 ^ 61 - 1 →
      ∀ k < 8, (pad m.length).getD (zeroCount m.length + 1 + k) 0 = BitVec.ofNat 8 (8 * m.length / 256 ^ (7 - k))) ∧
    (padded m).take m.length = m ∧ (padded m).drop m.length = pad m.length ∧
    (padded m).length = 64 * ((m.length + 9 + 63) / 64)

/-- 43 R153: for N ≤ N_MAX the footer's bytes are those of the exact product 8·N, most significant first. -/
def Obligations.FooterIsTheExactBitLength : Prop :=
  ∀ n : Nat, n ≤ 2 ^ 61 - 1 →
    (footer (BitVec.ofNat 64 n)).length = 8 ∧
    ∀ k < 8, (footer (BitVec.ofNat 64 n)).getD k 0 = BitVec.ofNat 8 (8 * n / 256 ^ (7 - k))

/-- 43 R154, R155: with r = N mod 64, the final blocks, one when r + 9 ≤ 64 and two otherwise, are exactly
BUF[0..r-1] ++ PAD(N). Over every state: where LEN is above N_MAX or FILL differs from LEN mod 64, r and the footer are
the model's choice (log 14). -/
def Obligations.FinalBlocksAreTheTail : Prop :=
  ∀ s : State,
    (s.frame.1.flatMap fun blk => blk.toList) = s.memRead 0 (s.len.toNat % 64) ++ pad s.len.toNat ∧
    s.frame.1.length = (if s.len.toNat % 64 + 9 ≤ 64 then 1 else 2)

/-- 45 R200: 20 bytes; digest byte 4i + k is H[i][31 - 8k : 24 - 8k]. -/
def Obligations.DigestBytes : Prop :=
  ∀ h : Regs,
    (serialize h).length = 20 ∧
    ∀ i < 5, ∀ k < 4, (serialize h).getD (4 * i + k) 0 = (h.toList.getD i 0).extractLsb' (24 - 8 * k) 8

/-- 45 R202: toHex writes two characters per byte, in byte order, the high nibble first, each a digit 0..9 or a letter
a..f. -/
def Obligations.HexRendering : Prop :=
  ∀ d : List Byte,
    (toHex d).length = 2 * d.length ∧
    ∀ k < d.length,
      (toHex d).getD (2 * k) '?' =
        ['0', '1', '2', '3', '4', '5', '6', '7', '8', '9', 'a', 'b', 'c', 'd', 'e', 'f'].getD ((d.getD k 0).toNat / 16) '?' ∧
      (toHex d).getD (2 * k + 1) '?' =
        ['0', '1', '2', '3', '4', '5', '6', '7', '8', '9', 'a', 'b', 'c', 'd', 'e', 'f'].getD ((d.getD k 0).toNat % 16) '?'

/-! ### Memory (20) -/

/-- 20 R50; log 3: two canonical stores that read alike at every address are the same data. -/
def Obligations.CanonicalStoresAreEqual : Prop :=
  ∀ m m' : Memory, m.wf = true → m'.wf = true → (∀ a, m.read a = m'.read a) → m = m'

/-! ### Encoding and decoding (30) -/

/-- 30 R80: a word is the header of a command exactly when it matches the command's row of match and mask. -/
def Obligations.MatchAndMaskSelectTheCommand : Prop :=
  ∀ hdr : Word,
    (checkHeader hdr = .ok .start ↔ hdr &&& 0xFFFFFFFF = 0x10000000) ∧
    (checkHeader hdr = .ok .absorb ↔ hdr &&& 0xFFFF0000 = 0x20000000) ∧
    (checkHeader hdr = .ok .finalize ↔ hdr &&& 0xFFFFFFFF = 0x30000000) ∧
    (checkHeader hdr = .ok .status ↔ hdr &&& 0xFFFFFFFF = 0x40000000)

/-- 30 R74: the header alone says how many words the command has; fewer words wait, and otherwise exactly those words
are split off, whatever the header's other fields. -/
def Obligations.HeaderAloneSplitsTheStream : Prop :=
  decode [] = .waiting ∧
  ∀ (hdr : Word) (ws : List Word) (n : Nat),
    n = (if hdr.toNat / 2 ^ 28 = 2 then (hdr.toNat % 2 ^ 16 + 3) / 4 else 0) →
      (ws.length < n → decode (hdr :: ws) = .waiting) ∧
      (n ≤ ws.length →
        (∃ i, decode (hdr :: ws) = .command i (ws.drop n)) ∨ (∃ e, decode (hdr :: ws) = .malformed e (ws.drop n)))

/-- 30 R78: chunk byte j is lane j mod 4 of data word j div 4. -/
def Obligations.ChunkByteLanes : Prop :=
  ∀ (cnt : Nat) (data : List Word), data.length = (cnt + 3) / 4 →
    (unpackChunk cnt data).length = cnt ∧
    ∀ j < cnt, (unpackChunk cnt data).getD j 0 = ((data.getD (j / 4) 0) >>> (24 - 8 * (j % 4))).extractLsb' 0 8

/-- 30 R79: data words that differ only in lanes beyond byte CNT - 1 decode to the same command. -/
def Obligations.UnusedLanesAreIgnored : Prop :=
  ∀ (hdr : Word) (data data' rest : List Word),
    opcField hdr = 2 → data.length = dataWords hdr → data'.length = dataWords hdr →
    (∀ j < (cntField hdr).toNat, lane (data.getD (j / 4) 0) (j % 4) = lane (data'.getD (j / 4) 0) (j % 4)) →
      decode (hdr :: (data ++ rest)) = decode (hdr :: (data' ++ rest))

/-- 30 R82, R89: how many words each command has, from 1 to 16385. -/
def Obligations.CommandLengths : Prop :=
  (encode .start).length = 1 ∧ (encode .finalize).length = 1 ∧ (encode .status).length = 1 ∧
  ∀ chunk : List Byte,
    (encode (.absorb chunk)).length = 1 + (chunk.length + 3) / 4 ∧
    ((Instr.absorb chunk).wf = true → (encode (.absorb chunk)).length ≤ 16385)

/-- 30 R80, R89: words written out from the spec's encodings decode to the commands they stand for. -/
def Obligations.WrittenWordsDecode : Prop :=
  decode [0x10000000] = .command .start [] ∧
  decode [0x20000005, 0x61626364, 0x65000000] = .command (.absorb [0x61, 0x62, 0x63, 0x64, 0x65]) [] ∧
  decode [0x30000000] = .command .finalize [] ∧
  decode [0x40000000] = .command .status [] ∧
  decode [0x00000000] = .malformed .illegalOpc [] ∧
  decode [0x20100001, 0xAA000000] = .malformed .reservedField []

/-- 30 R74, R80, R89: decoding the words of any well-formed command, whatever follows them on CMDQ, gives that command
back with every byte of its operand, and leaves what follows. -/
def Obligations.DecodeOfEncode : Prop :=
  ∀ i : Instr, i.wf = true → ∀ rest : List Word, decode (encode i ++ rest) = .command i rest

/-- 30 R74, R79, R80: a command that decodes is well-formed, and its own encoding has the same header and the same
number of words. -/
def Obligations.EncodeOfDecode : Prop :=
  ∀ (ws rest : List Word) (i : Instr), decode ws = .command i rest →
    i.wf = true ∧ (encode i).head? = ws.head? ∧ ws.length = (encode i).length + rest.length ∧
    (∃ own, ws = own ++ rest) ∧ decode (encode i ++ rest) = decode ws

/-- 30 R89, R78: the words of each command, chunk byte j in lane j mod 4 of data word j div 4 and the lanes beyond the
chunk 0x00, and the refusal of a chunk of more than 65535 bytes; and that the lines START, FINALIZE, STATUS and
ABSORB <chunk> place the words of their commands. The texts of a chunk are ChunkForms, `.word` is WordDirective and
DIGEST is DigestExpansion. -/
def Obligations.AssemblerWords : Prop :=
  Asm.command .start = some [0x10000000] ∧ Asm.command .finalize = some [0x30000000] ∧
  Asm.command .status = some [0x40000000] ∧
  Asm.line [.bare ['S', 'T', 'A', 'R', 'T']] = Asm.command .start ∧
  Asm.line [.bare ['F', 'I', 'N', 'A', 'L', 'I', 'Z', 'E']] = Asm.command .finalize ∧
  Asm.line [.bare ['S', 'T', 'A', 'T', 'U', 'S']] = Asm.command .status ∧
  ∀ c : List Byte,
    (c.length ≤ 65535 →
      ∃ d : List Word,
        Asm.command (.absorb c) = some ((0x20000000 ||| BitVec.ofNat 32 c.length) :: d) ∧
        d.length = (c.length + 3) / 4 ∧
        ∀ j < 4 * d.length, (d.getD (j / 4) 0 >>> (24 - 8 * (j % 4))).extractLsb' 0 8 = c.getD j 0x00) ∧
    (65535 < c.length → Asm.command (.absorb c) = none) ∧
    (∀ ts, Asm.chunk ts = some c →
      Asm.line (.bare ['A', 'B', 'S', 'O', 'R', 'B'] :: ts) = Asm.command (.absorb c))

/-- 30 R88: the texts of a chunk, each as a whole line: a string of ASCII characters stands for their codes, `bytes` for
the values after it (none for the empty chunk), `zeros N` for N bytes 0x00, `repeat "s" N` for s repeated N times; and
`;` outside the strings of a line starts a comment. The model's choices of log 15 in it: a semicolon or a backslash inside
a string is one of its characters, a value may have lowercase digits, N is decimal with leading zeros allowed, and spaces
at the end of a line or before its comment place nothing. -/
def Obligations.ChunkForms : Prop :=
  (∀ s : List Char, (∀ c ∈ s, c.toNat < 128 ∧ c ≠ '"') →
    Asm.assembleLines [['A', 'B', 'S', 'O', 'R', 'B', ' ', '"'] ++ s ++ ['"']] =
      Asm.command (.absorb (s.map fun c => BitVec.ofNat 8 c.toNat))) ∧
  (∀ l : List (Byte × Char × Char),
    (∀ v ∈ l,
      (v.2.1 =
          ['0', '1', '2', '3', '4', '5', '6', '7', '8', '9', 'A', 'B', 'C', 'D', 'E', 'F'].getD (v.1.toNat / 16) '?' ∨
        v.2.1 =
          ['0', '1', '2', '3', '4', '5', '6', '7', '8', '9', 'a', 'b', 'c', 'd', 'e', 'f'].getD (v.1.toNat / 16) '?') ∧
      (v.2.2 =
          ['0', '1', '2', '3', '4', '5', '6', '7', '8', '9', 'A', 'B', 'C', 'D', 'E', 'F'].getD (v.1.toNat % 16) '?' ∨
        v.2.2 =
          ['0', '1', '2', '3', '4', '5', '6', '7', '8', '9', 'a', 'b', 'c', 'd', 'e', 'f'].getD (v.1.toNat % 16) '?')) →
    Asm.assembleLines
        [['A', 'B', 'S', 'O', 'R', 'B', ' ', 'b', 'y', 't', 'e', 's'] ++
          l.flatMap fun v => [' ', '0', 'x', v.2.1, v.2.2]] =
      Asm.command (.absorb (l.map fun v => v.1))) ∧
  (∀ ds : List Nat, ds ≠ [] → (∀ d ∈ ds, d < 10) →
    Asm.assembleLines
        [['A', 'B', 'S', 'O', 'R', 'B', ' ', 'z', 'e', 'r', 'o', 's', ' '] ++ ds.map fun d => Char.ofNat (48 + d)] =
      Asm.command (.absorb (List.replicate (ds.foldl (fun n d => 10 * n + d) 0) 0x00))) ∧
  (∀ (s : List Char) (ds : List Nat), (∀ c ∈ s, c.toNat < 128 ∧ c ≠ '"') → ds ≠ [] → (∀ d ∈ ds, d < 10) →
    Asm.assembleLines
        [['A', 'B', 'S', 'O', 'R', 'B', ' ', 'r', 'e', 'p', 'e', 'a', 't', ' ', '"'] ++ s ++ ['"', ' '] ++
          ds.map fun d => Char.ofNat (48 + d)] =
      Asm.command
        (.absorb (List.replicate (ds.foldl (fun n d => 10 * n + d) 0) (s.map fun c => BitVec.ofNat 8 c.toNat)).flatten)) ∧
  ∀ (parts : List (List Char × List Char)) (u comment : List Char) (n : Nat),
    (∀ p ∈ parts, (∀ c ∈ p.1, c ≠ '"') ∧ ∀ c ∈ p.2, c ≠ '"') → (∀ c ∈ u, c ≠ '"') →
      Asm.assembleLines
          [(parts.flatMap fun p => p.1 ++ '"' :: p.2 ++ ['"']) ++ u ++ List.replicate n ' ' ++ ';' :: comment] =
        Asm.assembleLines [(parts.flatMap fun p => p.1 ++ '"' :: p.2 ++ ['"']) ++ u] ∧
      Asm.assembleLines [(parts.flatMap fun p => p.1 ++ '"' :: p.2 ++ ['"']) ++ u ++ List.replicate n ' '] =
        Asm.assembleLines [(parts.flatMap fun p => p.1 ++ '"' :: p.2 ++ ['"']) ++ u]

/-- 30 R90: the line `.word 0xHHHHHHHH` places the word whose nibbles, the high one first, its eight digits are. That a
digit may have lower case is the model's choice (log 15). -/
def Obligations.WordDirective : Prop :=
  ∀ (w : Word) (cs : List Char), cs.length = 8 →
    (∀ k < 8,
      cs.getD k '?' =
          ['0', '1', '2', '3', '4', '5', '6', '7', '8', '9', 'A', 'B', 'C', 'D', 'E', 'F'].getD
            (w.extractLsb' (28 - 4 * k) 4).toNat '?' ∨
        cs.getD k '?' =
          ['0', '1', '2', '3', '4', '5', '6', '7', '8', '9', 'a', 'b', 'c', 'd', 'e', 'f'].getD
            (w.extractLsb' (28 - 4 * k) 4).toNat '?') →
      Asm.assembleLines [['.', 'w', 'o', 'r', 'd', ' ', '0', 'x'] ++ cs] = some [w]

/-- 30 R91: DIGEST expands to START, then one ABSORB for each of the ⌈len/65535⌉ consecutive slices of the chunk, each
of 65535 bytes but the last, which holds the remainder, none when the chunk is empty, then FINALIZE; and so does its
line. -/
def Obligations.DigestExpansion : Prop :=
  ∀ m : List Byte,
    (∃ sl : List (List Byte),
      Asm.digest m = [0x10000000] ++ (sl.flatMap fun c => encode (.absorb c)) ++ [0x30000000] ∧
      (digestCommands m).length = sl.length + 2 ∧
      sl.flatten = m ∧ sl.length = (m.length + 65534) / 65535 ∧
      (∀ k, k + 1 < sl.length → (sl.getD k []).length = 65535) ∧
      ∀ c ∈ sl, 1 ≤ c.length ∧ c.length ≤ 65535) ∧
    ∀ ts, Asm.chunk ts = some m → Asm.line (.bare ['D', 'I', 'G', 'E', 'S', 'T'] :: ts) = some (Asm.digest m)

/-! ### A step -/

/-- 10 R30, 30 R74: when the words at the head of CMDQ decode to a command, a step consumes exactly them and is that
command's meaning. -/
def Obligations.StepRunsTheDecodedCommand : Prop :=
  ∀ (s : State) (i : Instr) (rest : List Word),
    decode s.cmdq = .command i rest → step s = exec i { s with cmdq := rest }

/-- 30 R74, 70 R242, R248: while CMDQ holds no whole command, or no word, the command has not executed. That the waiting
core takes a step, to exactly the same state, is the model's choice (log 6). -/
def Obligations.IncompleteCommandWaits : Prop :=
  ∀ s : State, decode s.cmdq = .waiting → step s = .next s

/-- 20 R58, 44 R170, R179: no command, header or phase stops the core: every step answers a next state. In a state that
waits for words that next state is the model's choice (log 6). -/
def Obligations.EveryStepAnswersANextState : Prop :=
  ∀ s : State, ∃ t, step s = .next t

/-- 30 R76, 60 R210, R212, R213: a reserved opcode outside FAULTED raises ILLEGAL_OPC, in any phase and whatever the
other fields; the word is consumed, and nothing else changes. -/
def Obligations.ReservedOpcodeFaults : Prop :=
  ∀ (s : State) (hdr : Word) (ws : List Word),
    s.cmdq = hdr :: ws → s.phase ≠ .faulted → (hdr.toNat / 2 ^ 28 = 0 ∨ 5 ≤ hdr.toNat / 2 ^ 28) →
      step s = .next { s with cmdq := ws, reason := .illegalOpc, phase := .faulted }

/-- 30 R75, 60 R210, R212, R213: a header with OPC 1 to 4 and a nonzero reserved field, outside FAULTED, raises
RESERVED_FIELD, in any phase; an ABSORB's data words are consumed with it. -/
def Obligations.ReservedFieldFaults : Prop :=
  ∀ (s : State) (hdr : Word) (data ws : List Word),
    s.cmdq = hdr :: (data ++ ws) → s.phase ≠ .faulted →
    1 ≤ hdr.toNat / 2 ^ 28 → hdr.toNat / 2 ^ 28 ≤ 4 →
    (hdr.toNat / 2 ^ 16 % 2 ^ 12 ≠ 0 ∨ (hdr.toNat / 2 ^ 28 ≠ 2 ∧ hdr.toNat % 2 ^ 16 ≠ 0)) →
    data.length = (if hdr.toNat / 2 ^ 28 = 2 then (hdr.toNat % 2 ^ 16 + 3) / 4 else 0) →
      step s = .next { s with cmdq := ws, reason := .reservedField, phase := .faulted }

/-! ### The commands (44) -/

/-- 44 R171, R170, 60 R212, 10 R22: START in IDLE sets H to the initial values, LEN and FILL to 0 and PHASE to ACTIVE, and changes
nothing else; in ACTIVE and DONE it raises SEQUENCE; in FAULTED it is discarded. -/
def Obligations.StartCommand : Prop :=
  ∀ s : State,
    (s.phase = .idle →
      exec .start s =
        .next { s with
          h := ⟨0x67452301, 0xEFCDAB89, 0x98BADCFE, 0x10325476, 0xC3D2E1F0⟩
          len := 0
          fill := 0
          phase := .active }) ∧
    (s.phase = .active ∨ s.phase = .done →
      exec .start s = .next { s with reason := .sequence, phase := .faulted }) ∧
    (s.phase = .faulted → exec .start s = .next s)

/-- 44 R174: an accepted ABSORB. H is the chained state after the complete blocks of BUF[0..FILL-1] followed by the
chunk; FILL counts the rest; byte k of the chunk is stored at (FILL + k) mod 64, and the last 64 of them stand there;
LEN grows by CNT. Frame: every address no byte is stored to, and PADBLK, PHASE, REASON, CMDQ and RSPQ, are as before. The closed forms
are derived from R174's loop. That a byte of BUF at or above FILL keeps what was last written is the model's choice
(log 8; 93 U6). -/
def Obligations.AbsorbCommand : Prop :=
  ∀ (s : State) (chunk : List Byte),
    s.phase = .active → s.len.toNat + chunk.length ≤ 2 ^ 61 - 1 →
      ∃ t, exec (.absorb chunk) s = .next t ∧
        t.h = chain s.h (s.memRead 0 s.fill.toNat ++ chunk) ((s.fill.toNat + chunk.length) / 64) ∧
        t.fill.toNat = (s.fill.toNat + chunk.length) % 64 ∧
        t.len.toNat = s.len.toNat + chunk.length ∧
        (∀ k < chunk.length, chunk.length ≤ k + 64 → t.buf.read ((s.fill.toNat + k) % 64) = chunk.getD k 0) ∧
        (∀ a, (∀ k < chunk.length, a ≠ (s.fill.toNat + k) % 64) → t.buf.read a = s.buf.read a) ∧
        t.padblk = s.padblk ∧ t.phase = s.phase ∧ t.reason = s.reason ∧ t.cmdq = s.cmdq ∧ t.rspq = s.rspq

/-- 44 R174, corner case: an accepted ABSORB of the empty chunk changes nothing. -/
def Obligations.AbsorbOfNothing : Prop :=
  ∀ s : State, s.phase = .active → s.len.toNat ≤ 2 ^ 61 - 1 → exec (.absorb []) s = .next s

/-- 44 R173: an ABSORB that would pass N_MAX raises LENGTH before any byte is absorbed. -/
def Obligations.AbsorbLengthFault : Prop :=
  ∀ (s : State) (chunk : List Byte),
    s.phase = .active → 2 ^ 61 - 1 < s.len.toNat + chunk.length →
      exec (.absorb chunk) s = .next { s with reason := .length, phase := .faulted }

/-- 44 R175: FINALIZE in ACTIVE. With r = LEN mod 64 and tail = BUF[0..r-1] ++ PAD(LEN), H is the chained state after
tail's blocks, the five words of H are emitted in order, and PHASE is DONE. Frame: BUF holds tail's first block (its
addresses below r as before), every other address reads as before, and LEN, FILL, REASON and CMDQ are as before.
What BUF keeps after FINALIZE is the model's choice (log 8; 93 U6), and so are r and the footer where LEN is above N_MAX
or FILL differs from LEN mod 64 (log 14). -/
def Obligations.FinalizeCommand : Prop :=
  ∀ (s : State) (tail : List Byte),
    s.phase = .active → tail = s.memRead 0 (s.len.toNat % 64) ++ pad s.len.toNat →
      ∃ t, exec .finalize s = .next t ∧
        t.h = chain s.h tail (tail.length / 64) ∧
        t.rspq = s.rspq ++ [t.h.a, t.h.b, t.h.c, t.h.d, t.h.e] ∧
        t.phase = .done ∧
        (∀ a, s.len.toNat % 64 ≤ a → a < 64 → t.buf.read a = tail.getD a 0) ∧
        (∀ a, a < s.len.toNat % 64 ∨ 64 ≤ a → t.buf.read a = s.buf.read a) ∧
        t.len = s.len ∧ t.fill = s.fill ∧ t.reason = s.reason ∧ t.cmdq = s.cmdq

/-- 44 R176, 10 R32, R28, R29: STATUS emits one word in every phase and changes nothing else; its fields are PHASE,
REASON and FILL, and every other bit is 0. -/
def Obligations.StatusCommand : Prop :=
  ∀ s : State, ∃ w : Word,
    exec .status s = .next { s with rspq := s.rspq ++ [w] } ∧
    w.extractLsb' 0 2 =
      (match s.phase with
        | .idle => 0
        | .active => 1
        | .done => 2
        | .faulted => 3) ∧
    w.extractLsb' 2 2 = 0 ∧
    w.extractLsb' 4 4 =
      (match s.reason with
        | .none => 0
        | .illegalOpc => 1
        | .reservedField => 2
        | .sequence => 3
        | .length => 4) ∧
    w.extractLsb' 8 6 = s.fill ∧ w.extractLsb' 14 18 = 0

/-- 44 R170, 60 R212: a command that is not legal in IDLE, ACTIVE or DONE raises SEQUENCE and has no other effect. -/
def Obligations.SequenceFaults : Prop :=
  ∀ (i : Instr) (s : State),
    ((i = .start ∧ (s.phase = .active ∨ s.phase = .done)) ∨
      ((i = .finalize ∨ ∃ chunk, i = .absorb chunk) ∧ (s.phase = .idle ∨ s.phase = .done))) →
      exec i s = .next { s with reason := .sequence, phase := .faulted }

/-- 44 R170, 60 R216: in FAULTED every command but a well-formed STATUS, malformed or not, is consumed and discarded. -/
def Obligations.FaultedDiscards : Prop :=
  ∀ (s : State) (rest : List Word),
    s.phase = .faulted →
    ((∃ e, decode s.cmdq = .malformed e rest) ∨ (∃ i, decode s.cmdq = .command i rest ∧ i ≠ .status)) →
      step s = .next { s with cmdq := rest }

/-! ### Reset and the invariant (70 R240; 10 R23, R24, R29) -/

/-- 70 R240: after hardware reset, from whatever state, PHASE = IDLE, REASON = NONE, FILL = 0 and both channels are
empty, and STATUS reads 0x00000000. -/
def Obligations.ResetState : Prop :=
  (∀ s : State,
    s.hardwareReset.phase = .idle ∧ s.hardwareReset.reason = .none ∧ s.hardwareReset.fill = 0 ∧
    s.hardwareReset.cmdq = [] ∧ s.hardwareReset.rspq = [] ∧
    exec .status s.hardwareReset = .next { s.hardwareReset with rspq := [0x00000000] }) ∧
  State.reset.phase = .idle ∧ State.reset.reason = .none ∧ State.reset.fill = 0 ∧ State.reset.cmdq = [] ∧
  State.reset.rspq = []

/-- 10 R23, R24, R29, 70 R240: the invariant holds after reset, and the host's reads and writes keep it. The canonical form
of BUF is the model's choice (log 3), and so are the host's actions between steps and the read of an empty RSPQ
(log 12). -/
def Obligations.InvariantAtResetAndUnderTheHost : Prop :=
  State.reset.Inv ∧ (∀ s : State, s.hardwareReset.Inv) ∧
  ∀ s : State, s.Inv → (∀ ws, (s.hostWrite ws).Inv) ∧ s.hostRead.2.Inv

/-- 10 R23, R24, R29: every step keeps the invariant: LEN ≤ N_MAX and FILL = LEN mod 64 while a computation is open or
done, FILL is 0 until START, REASON holds a cause exactly in FAULTED, and BUF stays canonical; the canonical form, a
list without an entry for 0x00, is the model's choice (log 3). -/
def Obligations.StepKeepsTheInvariant : Prop :=
  ∀ s t : State, s.Inv → step s = .next t → t.Inv

/-! ### Whole-machine rules -/

/-- 60 R216, R211, R212: no step leaves FAULTED, changes the first cause, or touches H, LEN, FILL, BUF or PADBLK there;
hardware reset leaves it. -/
def Obligations.FaultIsSticky : Prop :=
  (∀ s t : State, s.phase = .faulted → step s = .next t →
    t.phase = .faulted ∧ t.reason = s.reason ∧ t.h = s.h ∧ t.len = s.len ∧ t.fill = s.fill ∧ t.buf = s.buf ∧
    t.padblk = s.padblk) ∧
  ∀ s : State, s.hardwareReset.phase = .idle

/-- 10 R28, 44 R170: the moves of PHASE. One START per reset, and FINALIZE is terminal. -/
def Obligations.PhaseMoves : Prop :=
  ∀ s t : State, step s = .next t →
    (s.phase = .idle → t.phase = .idle ∨ t.phase = .active ∨ t.phase = .faulted) ∧
    (s.phase = .active → t.phase = .active ∨ t.phase = .done ∨ t.phase = .faulted) ∧
    (s.phase = .done → t.phase = .done ∨ t.phase = .faulted) ∧
    (s.phase = .faulted → t.phase = .faulted)

/-- 10 R20: a step that changes H carries out START in IDLE, or an ABSORB in ACTIVE that completes a block, or FINALIZE in
ACTIVE; H is then the initial values, or the chained state after the complete blocks of BUF[0..FILL-1] ++ chunk, or the
one after the blocks of BUF[0..r-1] ++ PAD(LEN) with r = LEN mod 64. Over every state: where LEN is above N_MAX or FILL
differs from LEN mod 64, r and the footer are the model's choice (log 14). -/
def Obligations.WritersOfTheChainedState : Prop :=
  ∀ s t : State, step s = .next t → t.h ≠ s.h →
    (∃ rest, decode s.cmdq = .command .start rest ∧ s.phase = .idle ∧ t.phase = .active ∧
      t.h = ⟨0x67452301, 0xEFCDAB89, 0x98BADCFE, 0x10325476, 0xC3D2E1F0⟩) ∨
    (∃ chunk rest, decode s.cmdq = .command (.absorb chunk) rest ∧ s.phase = .active ∧ t.phase = .active ∧
      64 ≤ s.fill.toNat + chunk.length ∧
      t.h = chain s.h (s.memRead 0 s.fill.toNat ++ chunk) ((s.fill.toNat + chunk.length) / 64)) ∨
    (∃ rest, decode s.cmdq = .command .finalize rest ∧ s.phase = .active ∧ t.phase = .done ∧
      t.h = chain s.h (s.memRead 0 (s.len.toNat % 64) ++ pad s.len.toNat)
        (if s.len.toNat % 64 + 9 ≤ 64 then 1 else 2))

/-- 60 R211, R212: a step that raises a fault is precise: it records the cause, and H, LEN, FILL, BUF, PADBLK and RSPQ
are as before. -/
def Obligations.FaultsArePrecise : Prop :=
  ∀ s t : State, step s = .next t → s.phase ≠ .faulted → t.phase = .faulted →
    t.reason ≠ .none ∧ t.h = s.h ∧ t.len = s.len ∧ t.fill = s.fill ∧ t.buf = s.buf ∧ t.padblk = s.padblk ∧
    t.rspq = s.rspq

/-- 30 R71, R81, 20 R60: a step that carries out STATUS appends the status word; a step that carries out FINALIZE in
ACTIVE ends the computation and appends the five words of the new H; every other step leaves RSPQ as it was. No word
already there is ever changed. -/
def Obligations.ResponsesAreAppended : Prop :=
  ∀ s t : State, step s = .next t →
    (∃ rest, decode s.cmdq = .command .status rest ∧ t.rspq = s.rspq ++ [s.statusWord]) ∨
    (∃ rest, decode s.cmdq = .command .finalize rest ∧ s.phase = .active ∧ t.phase = .done ∧
      t.rspq = s.rspq ++ [t.h.a, t.h.b, t.h.c, t.h.d, t.h.e]) ∨
    ((∀ rest, decode s.cmdq ≠ .command .status rest) ∧
      (s.phase = .active → ∀ rest, decode s.cmdq ≠ .command .finalize rest) ∧ t.rspq = s.rspq)

/-- 30 R74, 20 R60, R63: a step takes words from the head of CMDQ only, each once and in order: at least one, unless the
core waits. -/
def Obligations.CommandsAreConsumedInOrder : Prop :=
  ∀ s t : State, step s = .next t →
    ∃ own, s.cmdq = own ++ t.cmdq ∧ (own = [] ↔ decode s.cmdq = .waiting)

/-- 20 R60, R63, 30 R74; log 12: what the host appends behind a whole command does not change what that command does. -/
def Obligations.HostWriteCommutesWithStep : Prop :=
  ∀ (s t : State) (ws : List Word),
    decode s.cmdq ≠ .waiting → step s = .next t → step (s.hostWrite ws) = .next (t.hostWrite ws)

/-- 20 R58, R60; log 12: a host read of a word that is already on RSPQ gives the same word before and after a step, and
removes it and nothing else. -/
def Obligations.HostReadCommutesWithStep : Prop :=
  ∀ s t : State, s.rspq ≠ [] → step s = .next t →
    t.hostRead.1 = s.hostRead.1 ∧ step s.hostRead.2 = .next t.hostRead.2

/-! ### What the core computes (44 R177 to R179) -/

/-- 44 R177: START begins with the empty message, and an ABSORB within the limit extends the message held, whatever has
been absorbed before and however the chunk was cut; neither emits. -/
def Obligations.AbsorbExtendsTheMessage : Prop :=
  (∀ s : State, s.phase = .idle → ∃ t, exec .start s = .next t ∧ t.Holds [] ∧ t.rspq = s.rspq) ∧
  ∀ (s : State) (m chunk : List Byte),
    s.Holds m → (m ++ chunk).length ≤ 2 ^ 61 - 1 →
      ∃ t, exec (.absorb chunk) s = .next t ∧ t.Holds (m ++ chunk) ∧ t.rspq = s.rspq

/-- 44 R178: FINALIZE of a state that holds `m` emits H_k, the chained state after the padded message's blocks. -/
def Obligations.FinalizeEmitsTheDigest : Prop :=
  ∀ (s : State) (m : List Byte), s.Holds m →
    ∃ t, exec .finalize s = .next t ∧ t.phase = .done ∧ t.rspq = s.rspq ++ (sha1State m).toList

/-- 44 R177: however a message is split into chunks, START, the ABSORBs and FINALIZE emit the same five words, and after
the ABSORBs the core holds the message. -/
def Obligations.ChunkInvariance : Prop :=
  ∀ (s : State) (chunks : List (List Byte)),
    s.phase = .idle → (∀ c ∈ chunks, c.length ≤ 65535) → chunks.flatten.length ≤ 2 ^ 61 - 1 →
      ∃ t u, execAll (.start :: chunks.map .absorb) s = .next t ∧ t.Holds chunks.flatten ∧ t.rspq = s.rspq ∧
        exec .finalize t = .next u ∧ u.rspq = s.rspq ++ (sha1State chunks.flatten).toList

/-- 44 R179, 30 R91: for every message of at most N_MAX bytes the words of DIGEST, at the head of CMDQ of an IDLE core,
run to the end of the computation without a fault, emit the digest words and leave what follows them on CMDQ. -/
def Obligations.DigestCommandReturnsTheDigest : Prop :=
  ∀ (s : State) (m : List Byte) (rest : List Word),
    s.phase = .idle → s.reason = .none → m.length ≤ 2 ^ 61 - 1 → s.cmdq = Asm.digest m ++ rest →
      ∃ t, Sys2Proof.core.run (digestCommands m).length s = .next t ∧ t.phase = .done ∧ t.reason = .none ∧
        t.cmdq = rest ∧ t.rspq = s.rspq ++ (sha1State m).toList

/-- 70 R249: FINALIZE in ACTIVE ends the computation, unless the words behind it on CMDQ are a command that waits; a
step ends one in no other way; from an end a step leads to an end or to a failure, unless a command waits; IDLE, ACTIVE
and a core with a command that waits are no end; and no state is both an end and a failure. That an end is the five
words standing on RSPQ now is the model's reading (log 16). -/
def Obligations.EndOfAComputation : Prop :=
  (∀ s : State, s.phase = .active → (decode s.cmdq = .waiting → s.cmdq = []) →
    ∃ t, exec .finalize s = .next t ∧ t.ended) ∧
  (∀ s t : State, step s = .next t → s.phase ≠ .done → t.ended →
    s.phase = .active ∧ ∃ rest, decode s.cmdq = .command .finalize rest) ∧
  (∀ s t : State, s.ended → step s = .next t → (decode t.cmdq = .waiting → t.cmdq = []) → t.ended ∨ t.failed) ∧
  ∀ s : State,
    ((s.phase = .idle ∨ s.phase = .active ∨ (decode s.cmdq = .waiting ∧ s.cmdq ≠ [])) → ¬ s.ended) ∧
    (s.failed ↔ s.phase = .faulted) ∧ ¬ (s.ended ∧ s.failed)

/-! ### What stays invisible (70 R241, 10 R35) -/

/-- 70 R241, 10 R35; 93 U5, U6, U7: two states that agree on what the spec lets a command read stay so under a step. No
reset value the model names, no stale byte of BUF and no free value is ever read. -/
def Obligations.StepReadsNothingUnspecified : Prop :=
  ∀ s s' : State, s.Inv → s'.Inv → s.Alike s' →
    ∃ t t', step s = .next t ∧ step s' = .next t' ∧ t.Alike t'

/-- 70 R241: whatever H, A..E, LEN, BUF, PADBLK and W hold after reset, every run emits the same words and shows the same
PHASE, REASON and FILL as from the values the model names. -/
def Obligations.UnspecifiedResetValuesAreInvisible : Prop :=
  ∀ (r : State) (n : Nat),
    r.phase = .idle → r.reason = .none → r.fill = 0 → r.buf.wf = true →
      ∃ t t', Sys2Proof.core.run n r = .next t ∧
        Sys2Proof.core.run n { State.reset with cmdq := r.cmdq, rspq := r.rspq } = .next t' ∧
        t.rspq = t'.rspq ∧ t.cmdq = t'.cmdq ∧ t.phase = t'.phase ∧ t.reason = t'.reason ∧ t.fill = t'.fill
end

