-- ==== Sys2Proof/Laws/State.lean ====
section
/-! SUPPORT. What each update of the state does to each field: one lemma per field per update, so that no later proof
unfolds a record update. -/

namespace Sys2Proof.Machine

/-! ### Writing bytes of BUF (20 R50) -/

@[simp] theorem memWrite_h (s : State) (addr : BitVec 6) (v : List Byte) : (s.memWrite addr v).h = s.h := rfl
@[simp] theorem memWrite_work (s : State) (addr : BitVec 6) (v : List Byte) : (s.memWrite addr v).work = s.work := rfl
@[simp] theorem memWrite_len (s : State) (addr : BitVec 6) (v : List Byte) : (s.memWrite addr v).len = s.len := rfl
@[simp] theorem memWrite_fill (s : State) (addr : BitVec 6) (v : List Byte) : (s.memWrite addr v).fill = s.fill := rfl
@[simp] theorem memWrite_buf (s : State) (addr : BitVec 6) (v : List Byte) : (s.memWrite addr v).buf = s.buf.writeBytes addr v := rfl
@[simp] theorem memWrite_padblk (s : State) (addr : BitVec 6) (v : List Byte) : (s.memWrite addr v).padblk = s.padblk := rfl
@[simp] theorem memWrite_sched (s : State) (addr : BitVec 6) (v : List Byte) : (s.memWrite addr v).sched = s.sched := rfl
@[simp] theorem memWrite_phase (s : State) (addr : BitVec 6) (v : List Byte) : (s.memWrite addr v).phase = s.phase := rfl
@[simp] theorem memWrite_reason (s : State) (addr : BitVec 6) (v : List Byte) : (s.memWrite addr v).reason = s.reason := rfl
@[simp] theorem memWrite_cmdq (s : State) (addr : BitVec 6) (v : List Byte) : (s.memWrite addr v).cmdq = s.cmdq := rfl
@[simp] theorem memWrite_rspq (s : State) (addr : BitVec 6) (v : List Byte) : (s.memWrite addr v).rspq = s.rspq := rfl
@[simp] theorem memWrite_discards (s : State) (addr : BitVec 6) (v : List Byte) : (s.memWrite addr v).discards = s.discards := rfl

/-! ### Emitting a response word (30 R71) -/

@[simp] theorem emit_h (s : State) (w : Word) : (s.emit w).h = s.h := rfl
@[simp] theorem emit_work (s : State) (w : Word) : (s.emit w).work = s.work := rfl
@[simp] theorem emit_len (s : State) (w : Word) : (s.emit w).len = s.len := rfl
@[simp] theorem emit_fill (s : State) (w : Word) : (s.emit w).fill = s.fill := rfl
@[simp] theorem emit_buf (s : State) (w : Word) : (s.emit w).buf = s.buf := rfl
@[simp] theorem emit_padblk (s : State) (w : Word) : (s.emit w).padblk = s.padblk := rfl
@[simp] theorem emit_sched (s : State) (w : Word) : (s.emit w).sched = s.sched := rfl
@[simp] theorem emit_phase (s : State) (w : Word) : (s.emit w).phase = s.phase := rfl
@[simp] theorem emit_reason (s : State) (w : Word) : (s.emit w).reason = s.reason := rfl
@[simp] theorem emit_cmdq (s : State) (w : Word) : (s.emit w).cmdq = s.cmdq := rfl
@[simp] theorem emit_rspq (s : State) (w : Word) : (s.emit w).rspq = s.rspq ++ [w] := rfl
@[simp] theorem emit_discards (s : State) (w : Word) : (s.emit w).discards = s.discards := rfl

/-! ### Consuming command words (30 R74) -/

@[simp] theorem withCmdq_h (s : State) (ws : List Word) : (s.withCmdq ws).h = s.h := rfl
@[simp] theorem withCmdq_work (s : State) (ws : List Word) : (s.withCmdq ws).work = s.work := rfl
@[simp] theorem withCmdq_len (s : State) (ws : List Word) : (s.withCmdq ws).len = s.len := rfl
@[simp] theorem withCmdq_fill (s : State) (ws : List Word) : (s.withCmdq ws).fill = s.fill := rfl
@[simp] theorem withCmdq_buf (s : State) (ws : List Word) : (s.withCmdq ws).buf = s.buf := rfl
@[simp] theorem withCmdq_padblk (s : State) (ws : List Word) : (s.withCmdq ws).padblk = s.padblk := rfl
@[simp] theorem withCmdq_sched (s : State) (ws : List Word) : (s.withCmdq ws).sched = s.sched := rfl
@[simp] theorem withCmdq_phase (s : State) (ws : List Word) : (s.withCmdq ws).phase = s.phase := rfl
@[simp] theorem withCmdq_reason (s : State) (ws : List Word) : (s.withCmdq ws).reason = s.reason := rfl
@[simp] theorem withCmdq_cmdq (s : State) (ws : List Word) : (s.withCmdq ws).cmdq = ws := rfl
@[simp] theorem withCmdq_rspq (s : State) (ws : List Word) : (s.withCmdq ws).rspq = s.rspq := rfl
@[simp] theorem withCmdq_discards (s : State) (ws : List Word) : (s.withCmdq ws).discards = s.discards := rfl

/-! ### Discarding W and A..E (10 R21, R27) -/

@[simp] theorem discardSchedule_h (s : State) : (s.discardSchedule).h = s.h := rfl
@[simp] theorem discardSchedule_len (s : State) : (s.discardSchedule).len = s.len := rfl
@[simp] theorem discardSchedule_fill (s : State) : (s.discardSchedule).fill = s.fill := rfl
@[simp] theorem discardSchedule_buf (s : State) : (s.discardSchedule).buf = s.buf := rfl
@[simp] theorem discardSchedule_padblk (s : State) : (s.discardSchedule).padblk = s.padblk := rfl
@[simp] theorem discardSchedule_sched (s : State) : (s.discardSchedule).sched = Config.freeSchedule s.discards := rfl
@[simp] theorem discardSchedule_phase (s : State) : (s.discardSchedule).phase = s.phase := rfl
@[simp] theorem discardSchedule_reason (s : State) : (s.discardSchedule).reason = s.reason := rfl
@[simp] theorem discardSchedule_cmdq (s : State) : (s.discardSchedule).cmdq = s.cmdq := rfl
@[simp] theorem discardSchedule_rspq (s : State) : (s.discardSchedule).rspq = s.rspq := rfl
@[simp] theorem discardSchedule_discards (s : State) : (s.discardSchedule).discards = s.discards + 1 := rfl

/-! ### Discarding PADBLK (10 R26) -/

@[simp] theorem discardPadBlock_h (s : State) : (s.discardPadBlock).h = s.h := rfl
@[simp] theorem discardPadBlock_work (s : State) : (s.discardPadBlock).work = s.work := rfl
@[simp] theorem discardPadBlock_len (s : State) : (s.discardPadBlock).len = s.len := rfl
@[simp] theorem discardPadBlock_fill (s : State) : (s.discardPadBlock).fill = s.fill := rfl
@[simp] theorem discardPadBlock_buf (s : State) : (s.discardPadBlock).buf = s.buf := rfl
@[simp] theorem discardPadBlock_padblk (s : State) : (s.discardPadBlock).padblk = Config.freePadBlock s.discards := rfl
@[simp] theorem discardPadBlock_sched (s : State) : (s.discardPadBlock).sched = s.sched := rfl
@[simp] theorem discardPadBlock_phase (s : State) : (s.discardPadBlock).phase = s.phase := rfl
@[simp] theorem discardPadBlock_reason (s : State) : (s.discardPadBlock).reason = s.reason := rfl
@[simp] theorem discardPadBlock_cmdq (s : State) : (s.discardPadBlock).cmdq = s.cmdq := rfl
@[simp] theorem discardPadBlock_rspq (s : State) : (s.discardPadBlock).rspq = s.rspq := rfl
@[simp] theorem discardPadBlock_discards (s : State) : (s.discardPadBlock).discards = s.discards + 1 := rfl

/-! ### Fault entry (60 R212) -/

@[simp] theorem raiseFault_h (s : State) (r : Reason) : (s.raiseFault r).h = s.h := rfl
@[simp] theorem raiseFault_work (s : State) (r : Reason) : (s.raiseFault r).work = s.work := rfl
@[simp] theorem raiseFault_len (s : State) (r : Reason) : (s.raiseFault r).len = s.len := rfl
@[simp] theorem raiseFault_fill (s : State) (r : Reason) : (s.raiseFault r).fill = s.fill := rfl
@[simp] theorem raiseFault_buf (s : State) (r : Reason) : (s.raiseFault r).buf = s.buf := rfl
@[simp] theorem raiseFault_padblk (s : State) (r : Reason) : (s.raiseFault r).padblk = s.padblk := rfl
@[simp] theorem raiseFault_sched (s : State) (r : Reason) : (s.raiseFault r).sched = s.sched := rfl
@[simp] theorem raiseFault_phase (s : State) (r : Reason) : (s.raiseFault r).phase = .faulted := rfl
@[simp] theorem raiseFault_reason (s : State) (r : Reason) : (s.raiseFault r).reason = r := rfl
@[simp] theorem raiseFault_cmdq (s : State) (r : Reason) : (s.raiseFault r).cmdq = s.cmdq := rfl
@[simp] theorem raiseFault_rspq (s : State) (r : Reason) : (s.raiseFault r).rspq = s.rspq := rfl
@[simp] theorem raiseFault_discards (s : State) (r : Reason) : (s.raiseFault r).discards = s.discards := rfl

/-! ### COMPRESS_BLOCK (42 R138). Stated over any W, A..E and H first, so that no proof unfolds the 80 steps -/

theorem withCompression_discard_h (s : State) (w : Schedule) (x h : Regs) :
    (s.withCompression w x h).discardSchedule.h = h := rfl
theorem withCompression_discard_len (s : State) (w : Schedule) (x h : Regs) :
    (s.withCompression w x h).discardSchedule.len = s.len := rfl
theorem withCompression_discard_fill (s : State) (w : Schedule) (x h : Regs) :
    (s.withCompression w x h).discardSchedule.fill = s.fill := rfl
theorem withCompression_discard_buf (s : State) (w : Schedule) (x h : Regs) :
    (s.withCompression w x h).discardSchedule.buf = s.buf := rfl
theorem withCompression_discard_padblk (s : State) (w : Schedule) (x h : Regs) :
    (s.withCompression w x h).discardSchedule.padblk = s.padblk := rfl
theorem withCompression_discard_sched (s : State) (w : Schedule) (x h : Regs) :
    (s.withCompression w x h).discardSchedule.sched = Config.freeSchedule s.discards := rfl
theorem withCompression_discard_phase (s : State) (w : Schedule) (x h : Regs) :
    (s.withCompression w x h).discardSchedule.phase = s.phase := rfl
theorem withCompression_discard_reason (s : State) (w : Schedule) (x h : Regs) :
    (s.withCompression w x h).discardSchedule.reason = s.reason := rfl
theorem withCompression_discard_cmdq (s : State) (w : Schedule) (x h : Regs) :
    (s.withCompression w x h).discardSchedule.cmdq = s.cmdq := rfl
theorem withCompression_discard_rspq (s : State) (w : Schedule) (x h : Regs) :
    (s.withCompression w x h).discardSchedule.rspq = s.rspq := rfl
theorem withCompression_discard_discards (s : State) (w : Schedule) (x h : Regs) :
    (s.withCompression w x h).discardSchedule.discards = s.discards + 1 := rfl

@[simp] theorem compressBlock_h (s : State) (blk : Block) : (s.compressBlock blk).h = compress s.h blk := by
  unfold State.compressBlock; unfold compress; exact withCompression_discard_h _ _ _ _
@[simp] theorem compressBlock_len (s : State) (blk : Block) : (s.compressBlock blk).len = s.len := by
  unfold State.compressBlock; exact withCompression_discard_len _ _ _ _
@[simp] theorem compressBlock_fill (s : State) (blk : Block) : (s.compressBlock blk).fill = s.fill := by
  unfold State.compressBlock; exact withCompression_discard_fill _ _ _ _
@[simp] theorem compressBlock_buf (s : State) (blk : Block) : (s.compressBlock blk).buf = s.buf := by
  unfold State.compressBlock; exact withCompression_discard_buf _ _ _ _
@[simp] theorem compressBlock_padblk (s : State) (blk : Block) : (s.compressBlock blk).padblk = s.padblk := by
  unfold State.compressBlock; exact withCompression_discard_padblk _ _ _ _
@[simp] theorem compressBlock_sched (s : State) (blk : Block) : (s.compressBlock blk).sched = Config.freeSchedule s.discards := by
  unfold State.compressBlock; exact withCompression_discard_sched _ _ _ _
@[simp] theorem compressBlock_phase (s : State) (blk : Block) : (s.compressBlock blk).phase = s.phase := by
  unfold State.compressBlock; exact withCompression_discard_phase _ _ _ _
@[simp] theorem compressBlock_reason (s : State) (blk : Block) : (s.compressBlock blk).reason = s.reason := by
  unfold State.compressBlock; exact withCompression_discard_reason _ _ _ _
@[simp] theorem compressBlock_cmdq (s : State) (blk : Block) : (s.compressBlock blk).cmdq = s.cmdq := by
  unfold State.compressBlock; exact withCompression_discard_cmdq _ _ _ _
@[simp] theorem compressBlock_rspq (s : State) (blk : Block) : (s.compressBlock blk).rspq = s.rspq := by
  unfold State.compressBlock; exact withCompression_discard_rspq _ _ _ _
@[simp] theorem compressBlock_discards (s : State) (blk : Block) : (s.compressBlock blk).discards = s.discards + 1 := by
  unfold State.compressBlock; exact withCompression_discard_discards _ _ _ _


/-! ### START's effect (44 R171) -/

@[simp] theorem startEffect_h (s : State) : (startEffect s).h = initialValues := rfl
@[simp] theorem startEffect_work (s : State) : (startEffect s).work = s.work := rfl
@[simp] theorem startEffect_len (s : State) : (startEffect s).len = 0 := rfl
@[simp] theorem startEffect_fill (s : State) : (startEffect s).fill = 0 := rfl
@[simp] theorem startEffect_buf (s : State) : (startEffect s).buf = s.buf := rfl
@[simp] theorem startEffect_padblk (s : State) : (startEffect s).padblk = s.padblk := rfl
@[simp] theorem startEffect_sched (s : State) : (startEffect s).sched = s.sched := rfl
@[simp] theorem startEffect_phase (s : State) : (startEffect s).phase = .active := rfl
@[simp] theorem startEffect_reason (s : State) : (startEffect s).reason = s.reason := rfl
@[simp] theorem startEffect_cmdq (s : State) : (startEffect s).cmdq = s.cmdq := rfl
@[simp] theorem startEffect_rspq (s : State) : (startEffect s).rspq = s.rspq := rfl
@[simp] theorem startEffect_discards (s : State) : (startEffect s).discards = s.discards := rfl

/-! ### STATUS's effect (44 R176) -/

@[simp] theorem statusEffect_h (s : State) : (statusEffect s).h = s.h := rfl
@[simp] theorem statusEffect_work (s : State) : (statusEffect s).work = s.work := rfl
@[simp] theorem statusEffect_len (s : State) : (statusEffect s).len = s.len := rfl
@[simp] theorem statusEffect_fill (s : State) : (statusEffect s).fill = s.fill := rfl
@[simp] theorem statusEffect_buf (s : State) : (statusEffect s).buf = s.buf := rfl
@[simp] theorem statusEffect_padblk (s : State) : (statusEffect s).padblk = s.padblk := rfl
@[simp] theorem statusEffect_sched (s : State) : (statusEffect s).sched = s.sched := rfl
@[simp] theorem statusEffect_phase (s : State) : (statusEffect s).phase = s.phase := rfl
@[simp] theorem statusEffect_reason (s : State) : (statusEffect s).reason = s.reason := rfl
@[simp] theorem statusEffect_cmdq (s : State) : (statusEffect s).cmdq = s.cmdq := rfl
@[simp] theorem statusEffect_rspq (s : State) : (statusEffect s).rspq = s.rspq ++ [s.statusWord] := rfl
@[simp] theorem statusEffect_discards (s : State) : (statusEffect s).discards = s.discards := rfl

/-! ### The host writing CMDQ (30 R70) -/

@[simp] theorem hostWrite_h (s : State) (ws : List Word) : (s.hostWrite ws).h = s.h := rfl
@[simp] theorem hostWrite_work (s : State) (ws : List Word) : (s.hostWrite ws).work = s.work := rfl
@[simp] theorem hostWrite_len (s : State) (ws : List Word) : (s.hostWrite ws).len = s.len := rfl
@[simp] theorem hostWrite_fill (s : State) (ws : List Word) : (s.hostWrite ws).fill = s.fill := rfl
@[simp] theorem hostWrite_buf (s : State) (ws : List Word) : (s.hostWrite ws).buf = s.buf := rfl
@[simp] theorem hostWrite_padblk (s : State) (ws : List Word) : (s.hostWrite ws).padblk = s.padblk := rfl
@[simp] theorem hostWrite_sched (s : State) (ws : List Word) : (s.hostWrite ws).sched = s.sched := rfl
@[simp] theorem hostWrite_phase (s : State) (ws : List Word) : (s.hostWrite ws).phase = s.phase := rfl
@[simp] theorem hostWrite_reason (s : State) (ws : List Word) : (s.hostWrite ws).reason = s.reason := rfl
@[simp] theorem hostWrite_cmdq (s : State) (ws : List Word) : (s.hostWrite ws).cmdq = s.cmdq ++ ws := rfl
@[simp] theorem hostWrite_rspq (s : State) (ws : List Word) : (s.hostWrite ws).rspq = s.rspq := rfl
@[simp] theorem hostWrite_discards (s : State) (ws : List Word) : (s.hostWrite ws).discards = s.discards := rfl

/-! ### The host reading RSPQ (20 R58) -/

@[simp] theorem hostRead_h (s : State) : (s.hostRead.2).h = s.h := rfl
@[simp] theorem hostRead_work (s : State) : (s.hostRead.2).work = s.work := rfl
@[simp] theorem hostRead_len (s : State) : (s.hostRead.2).len = s.len := rfl
@[simp] theorem hostRead_fill (s : State) : (s.hostRead.2).fill = s.fill := rfl
@[simp] theorem hostRead_buf (s : State) : (s.hostRead.2).buf = s.buf := rfl
@[simp] theorem hostRead_padblk (s : State) : (s.hostRead.2).padblk = s.padblk := rfl
@[simp] theorem hostRead_sched (s : State) : (s.hostRead.2).sched = s.sched := rfl
@[simp] theorem hostRead_phase (s : State) : (s.hostRead.2).phase = s.phase := rfl
@[simp] theorem hostRead_reason (s : State) : (s.hostRead.2).reason = s.reason := rfl
@[simp] theorem hostRead_cmdq (s : State) : (s.hostRead.2).cmdq = s.cmdq := rfl
@[simp] theorem hostRead_rspq (s : State) : (s.hostRead.2).rspq = s.rspq.tail := rfl
@[simp] theorem hostRead_discards (s : State) : (s.hostRead.2).discards = s.discards := rfl

end Sys2Proof.Machine
end

