-- ==== Sys2Proof/Laws/Memory.lean ====
section
/-! SUPPORT. The block-buffer store: reading after writing, one byte and several, and that every operation keeps the
canonical form. -/

namespace Sys2Proof.Machine

/-! ### One byte -/

@[simp] theorem read_nil (a : Nat) : Memory.read [] a = Config.unlistedByte := rfl

theorem read_cons (k : Nat) (b : Byte) (m : Memory) (a : Nat) :
    Memory.read ((k, b) :: m) a = if k = a then b else Memory.read m a := rfl

theorem read_forget_same (m : Memory) (a : Nat) : (m.forget a).read a = Config.unlistedByte := by
  induction m with
  | nil => rfl
  | cons c m ih =>
    obtain ⟨k, b⟩ := c
    by_cases h : k = a <;> simp [Memory.forget, h, ih, read_cons]

theorem read_forget_other (m : Memory) {a a' : Nat} (h : a ≠ a') : (m.forget a).read a' = m.read a' := by
  induction m with
  | nil => rfl
  | cons c m ih =>
    obtain ⟨k, b⟩ := c
    by_cases hk : k = a
    · subst hk; simp [Memory.forget, ih, read_cons, h]
    · simp [Memory.forget, hk, ih, read_cons]

theorem read_insertCell_other (m : Memory) {a a' : Nat} (b : Byte) (h : a ≠ a') :
    (m.insertCell a b).read a' = m.read a' := by
  induction m with
  | nil => simp [Memory.insertCell, read_cons, h]
  | cons c m ih =>
    obtain ⟨k, c⟩ := c
    by_cases hk : a < k <;> simp [Memory.insertCell, hk, ih, read_cons, h]

theorem read_insertCell_same (m : Memory) (a : Nat) (b : Byte) : ((m.forget a).insertCell a b).read a = b := by
  induction m with
  | nil => simp [Memory.forget, Memory.insertCell, read_cons]
  | cons c m ih =>
    obtain ⟨k, c⟩ := c
    by_cases hk : k = a
    · simpa [Memory.forget, hk] using ih
    · by_cases ha : a < k <;> simp [Memory.forget, hk, Memory.insertCell, ha, ih, read_cons]

/-- A read after a write to the same address gives the byte written. -/
theorem read_write_same (m : Memory) (a : Nat) (b : Byte) : (m.write a b).read a = b := by
  unfold Memory.write
  split
  · rename_i h; rw [read_forget_same, h]
  · exact read_insertCell_same m a b

/-- A write leaves every other address alone. -/
theorem read_write_other (m : Memory) {a a' : Nat} (b : Byte) (h : a ≠ a') : (m.write a b).read a' = m.read a' := by
  unfold Memory.write
  split
  · exact read_forget_other m h
  · rw [read_insertCell_other _ b h, read_forget_other m h]

theorem read_write (m : Memory) (a a' : Nat) (b : Byte) :
    (m.write a b).read a' = if a = a' then b else m.read a' := by
  split
  · rename_i h; subst h; exact read_write_same m a b
  · rename_i h; exact read_write_other m b h

/-! ### The canonical form -/

theorem wfFrom_mono {lo lo' : Nat} {m : Memory} (h : Memory.wfFrom lo' m = true) (hl : lo ≤ lo') :
    Memory.wfFrom lo m = true := by
  cases m with
  | nil => rfl
  | cons c m =>
    obtain ⟨k, b⟩ := c
    simp only [Memory.wfFrom, Bool.and_eq_true, decide_eq_true_eq] at h ⊢
    exact ⟨⟨⟨by omega, h.1.1.2⟩, h.1.2⟩, h.2⟩

theorem forget_wfFrom {lo : Nat} {m : Memory} (a : Nat) (h : Memory.wfFrom lo m = true) :
    Memory.wfFrom lo (m.forget a) = true := by
  induction m generalizing lo with
  | nil => rfl
  | cons c m ih =>
    obtain ⟨k, b⟩ := c
    simp only [Memory.wfFrom, Bool.and_eq_true, decide_eq_true_eq] at h
    by_cases hk : k = a
    · simp only [Memory.forget, hk, if_true]
      exact ih (wfFrom_mono h.2 (by omega))
    · simp only [Memory.forget, hk, if_false, Memory.wfFrom, Bool.and_eq_true, decide_eq_true_eq]
      exact ⟨h.1, ih h.2⟩

/-- What `forget` leaves has no entry for the address, so nothing below it stops an insertion from rising strictly. -/
theorem insertCell_wfFrom {lo : Nat} {m : Memory} {a : Nat} {b : Byte} (h : Memory.wfFrom lo m = true)
    (hlo : lo ≤ a) (ha : a < 64) (hb : b ≠ Config.unlistedByte) :
    Memory.wfFrom lo ((m.forget a).insertCell a b) = true := by
  induction m generalizing lo with
  | nil => simp [Memory.forget, Memory.insertCell, Memory.wfFrom, hlo, ha, hb]
  | cons c m ih =>
    obtain ⟨k, c⟩ := c
    simp only [Memory.wfFrom, Bool.and_eq_true, decide_eq_true_eq] at h
    by_cases hk : k = a
    · simp only [Memory.forget, hk, if_true]
      exact ih (wfFrom_mono h.2 (by omega)) hlo
    · by_cases hak : a < k
      · simp only [Memory.forget, hk, if_false, Memory.insertCell, hak, if_true, Memory.wfFrom, Bool.and_eq_true,
          decide_eq_true_eq]
        exact ⟨⟨⟨hlo, ha⟩, hb⟩, ⟨⟨by omega, h.1.1.2⟩, h.1.2⟩, forget_wfFrom a h.2⟩
      · simp only [Memory.forget, hk, if_false, Memory.insertCell, hak, Memory.wfFrom, Bool.and_eq_true,
          decide_eq_true_eq]
        exact ⟨h.1, ih h.2 (by omega)⟩

/-- Writing a byte of the block-buffer space keeps the canonical form. -/
theorem write_wf {m : Memory} {a : Nat} (b : Byte) (h : m.wf = true) (ha : a < 64) : (m.write a b).wf = true := by
  unfold Memory.write
  split
  · exact forget_wfFrom a h
  · rename_i hb; exact insertCell_wfFrom h (Nat.zero_le a) ha hb

/-- Writing several bytes keeps the canonical form: a six-bit address lies in the space. -/
theorem writeBytes_wf {m : Memory} (addr : BitVec 6) (v : List Byte) (h : m.wf = true) :
    (m.writeBytes addr v).wf = true := by
  induction v generalizing m addr with
  | nil => exact h
  | cons b v ih => exact ih _ (write_wf b h addr.isLt)

/-- An address below everything a canonical store lists is not listed. -/
theorem read_below {lo a : Nat} {m : Memory} (h : Memory.wfFrom lo m = true) (ha : a < lo) :
    m.read a = Config.unlistedByte := by
  induction m generalizing lo with
  | nil => rfl
  | cons c m ih =>
    obtain ⟨k, b⟩ := c
    simp only [Memory.wfFrom, Bool.and_eq_true, decide_eq_true_eq] at h
    rw [read_cons, if_neg (by omega)]
    exact ih h.2 (by omega)

/-! ### Several bytes -/

theorem addr_succ (addr : BitVec 6) : (addr + 1).toNat = (addr.toNat + 1) % 64 := by
  simp [BitVec.toNat_add]

/-- Bytes written below address 64 land at consecutive addresses and nowhere else. -/
theorem read_writeBytes (m : Memory) (addr : BitVec 6) (v : List Byte) (a : Nat) (h : addr.toNat + v.length ≤ 64) :
    (m.writeBytes addr v).read a =
      if addr.toNat ≤ a ∧ a < addr.toNat + v.length then v.getD (a - addr.toNat) 0 else m.read a := by
  induction v generalizing m addr with
  | nil => simp [Memory.writeBytes]
  | cons b v ih =>
    simp only [List.length_cons] at h
    simp only [Memory.writeBytes, List.length_cons]
    by_cases hv : v = []
    · subst hv
      simp only [Memory.writeBytes, read_write, List.length_nil, Nat.zero_add]
      by_cases ha : addr.toNat = a
      · subst ha; simp
      · rw [if_neg ha, if_neg (by omega)]
    · have hvl : 0 < v.length := List.length_pos_iff.mpr hv
      have hs : (addr + 1).toNat = addr.toNat + 1 := by rw [addr_succ]; omega
      rw [ih _ _ (by omega), hs, read_write]
      by_cases ha : addr.toNat = a
      · subst ha; simp
      · by_cases hr : addr.toNat + 1 ≤ a ∧ a < addr.toNat + 1 + v.length
        · rw [if_pos hr, if_pos (by omega)]
          have : a - addr.toNat = a - (addr.toNat + 1) + 1 := by omega
          rw [this, List.getD_cons_succ]
        · rw [if_neg hr, if_neg ha, if_neg (by omega)]

@[simp] theorem readBytes_length (m : Memory) (addr : BitVec 6) (n : Nat) : (m.readBytes addr n).length = n := by
  induction n generalizing addr with
  | zero => rfl
  | succ n ih => simp [Memory.readBytes, ih]

/-- The j-th byte of a read that stays below address 64. -/
theorem getD_readBytes (m : Memory) (addr : BitVec 6) (n j : Nat) (hj : j < n) (h : addr.toNat + n ≤ 64) :
    (m.readBytes addr n).getD j 0 = m.read (addr.toNat + j) := by
  induction n generalizing addr j with
  | zero => omega
  | succ n ih =>
    cases j with
    | zero => simp [Memory.readBytes]
    | succ j =>
      have hs : (addr + 1).toNat = addr.toNat + 1 := by rw [addr_succ]; omega
      rw [Memory.readBytes, List.getD_cons_succ, ih _ _ (by omega) (by omega), hs]
      congr 1; omega

@[simp] theorem memRead_length (s : State) (addr : BitVec 6) (n : Nat) : (s.memRead addr n).length = n :=
  readBytes_length _ _ _

/-- The first n bytes of BUF. -/
theorem getD_memRead_zero (s : State) (n j : Nat) (hj : j < n) (h : n ≤ 64) :
    (s.memRead 0 n).getD j 0 = s.buf.read j := by
  have := getD_readBytes s.buf 0 n j hj (by simpa using h)
  simpa [State.memRead] using this

end Sys2Proof.Machine
end

