-- ==== Sys2Proof/Laws/Blocks.lean ====
section
/-! SUPPORT. Blocks as byte lists, the schedule the expander writes, and the chained state over consecutive blocks. -/

namespace Sys2Proof.Machine

/-- `+32` is the addition of words (40 R105). -/
theorem add32_eq (x y : Word) : add32 x y = x + y := by
  apply BitVec.eq_of_toNat_eq; simp [add32]

/-! ### Blocks -/

theorem blockAt_toList (l : List Byte) (off : Nat) :
    (blockAt l off).toList = List.ofFn fun j : Fin 64 => l.getD (off + j) 0x00 := by
  simp only [blockAt, Vector.toList, Vector.ofFn, Array.toList_ofFn]

/-- The block at an offset holds the 64 bytes there. -/
theorem blockAt_toList_eq (l : List Byte) (off : Nat) (h : off + 64 ≤ l.length) :
    (blockAt l off).toList = (l.drop off).take 64 := by
  rw [blockAt_toList]
  apply List.ext_getElem
  · simp; omega
  · intro i h₁ h₂
    simp only [List.length_ofFn] at h₁
    simp only [List.getElem_ofFn, List.getElem_take, List.getElem_drop, List.getD_eq_getElem?_getD]
    rw [List.getElem?_eq_getElem (by omega)]; rfl

/-- Byte j of the block at an offset. -/
theorem byte_blockAt (l : List Byte) (off j : Nat) (hj : j < 64) :
    Block.byte (blockAt l off) j = l.getD (off + j) 0 := by
  rw [Block.byte, blockAt_toList, List.getD_eq_getElem?_getD, List.getElem?_ofFn, dif_pos hj]
  rfl

/-- Two lists with the same 64 bytes at their offsets give the same block. -/
theorem blockAt_congr {l l' : List Byte} {off off' : Nat}
    (h : ∀ j < 64, l.getD (off + j) 0 = l'.getD (off' + j) 0) : blockAt l off = blockAt l' off' := by
  unfold blockAt
  congr 1
  funext j
  exact h j j.isLt

/-- BUF as a block, when its bytes are those of a list at an offset. -/
theorem bufBlock_eq {s : State} {l : List Byte} {off : Nat}
    (h : ∀ j < 64, s.buf.read j = l.getD (off + j) 0) : s.bufBlock = blockAt l off := by
  apply blockAt_congr
  intro j hj
  rw [Nat.zero_add, getD_memRead_zero s 64 j hj (Nat.le_refl _), h j hj]

/-! ### The schedule -/

theorem word_setIfInBounds_same (w : Schedule) {t : Nat} (x : Word) (h : t < 80) :
    Schedule.word (w.setIfInBounds t x) t = x := by
  simp [Schedule.word, List.getD_eq_getElem?_getD, h]

theorem word_setIfInBounds_other (w : Schedule) {t u : Nat} (x : Word) (h : t ≠ u) :
    Schedule.word (w.setIfInBounds t x) u = Schedule.word w u := by
  simp [Schedule.word, List.getD_eq_getElem?_getD, h]

/-- The loop writes no word below where it starts. -/
theorem word_expandFrom_below (n t : Nat) (w : Schedule) {u : Nat} (h : u < t) :
    Schedule.word (expandFrom n t w) u = Schedule.word w u := by
  induction n generalizing t w with
  | zero => rfl
  | succ n ih =>
    rw [expandFrom, ih _ _ (by omega), word_setIfInBounds_other _ _ (by omega)]

/-- A word depends on words below it only. -/
theorem nextWord_congr {w w' : Schedule} {t : Nat} (ht : 16 ≤ t)
    (h : ∀ u < t, Schedule.word w u = Schedule.word w' u) : nextWord w t = nextWord w' t := by
  unfold nextWord
  rw [h (t - 3) (by omega), h (t - 8) (by omega), h (t - 14) (by omega), h (t - 16) (by omega)]

/-- Every word the loop writes satisfies the recurrence in the loop's result. -/
theorem word_expandFrom (n t : Nat) (w : Schedule) {u : Nat} (ht : 16 ≤ t) (hu : t ≤ u) (hn : u < t + n)
    (h80 : t + n ≤ 80) : Schedule.word (expandFrom n t w) u = nextWord (expandFrom n t w) u := by
  induction n generalizing t w with
  | zero => omega
  | succ n ih =>
    rw [expandFrom]
    by_cases h : u = t
    · subst h
      rw [word_expandFrom_below _ _ _ (Nat.lt_succ_self u), word_setIfInBounds_same _ _ (by omega)]
      apply nextWord_congr ht
      intro v hv
      rw [word_expandFrom_below _ _ _ (by omega), word_setIfInBounds_other _ _ (by omega)]
    · exact ih _ _ (by omega) (by omega) (by omega) (by omega)

theorem word_loadWords (blk : Block) {t : Nat} (h : t < 16) :
    Schedule.word (loadWords blk) t = Block.word blk t := by
  have hl : (loadWords blk).toList = List.ofFn fun t : Fin 80 => if t.val < 16 then Block.word blk t else 0 := by
    simp only [loadWords, Vector.toList, Vector.ofFn, Array.toList_ofFn]
  rw [Schedule.word, hl, List.getD_eq_getElem?_getD, List.getElem?_ofFn, dif_pos (by omega)]
  simp [h]

/-- The two loops that make up EXPAND; `expand` itself is irreducible, so that no proof runs its 64 steps. -/
theorem expand_eq (blk : Block) : expand blk = expandFrom 64 16 (loadWords blk) := by
  unfold expand; rfl

/-- Two schedules with the same 80 words are equal. -/
theorem schedule_ext {w w' : Schedule} (h : ∀ t < 80, Schedule.word w t = Schedule.word w' t) : w = w' := by
  apply Vector.ext
  intro t ht
  have := h t ht
  simpa [Schedule.word, List.getD_eq_getElem?_getD, ht] using this

/-! ### The chained state over blocks (44 R178) -/

/-- The chained state after k blocks depends on the first 64k bytes only. -/
theorem chain_congr (h : Regs) {l l' : List Byte} {k : Nat} (hl : ∀ i < 64 * k, l.getD i 0 = l'.getD i 0) :
    chain h l k = chain h l' k := by
  induction k with
  | zero => rfl
  | succ k ih =>
    rw [chain, chain, ih fun i hi => hl i (by omega)]
    exact congrArg (compress _) (blockAt_congr fun j hj => hl _ (by omega))

theorem getD_append_left {l r : List Byte} {i : Nat} (h : i < l.length) : (l ++ r).getD i 0 = l.getD i 0 := by
  simp [List.getD_eq_getElem?_getD, List.getElem?_append_left h]

theorem getD_append_right {l r : List Byte} {i : Nat} (h : l.length ≤ i) :
    (l ++ r).getD i 0 = r.getD (i - l.length) 0 := by
  simp [List.getD_eq_getElem?_getD, List.getElem?_append_right h]

theorem getD_past {l : List Byte} {i : Nat} (h : l.length ≤ i) : l.getD i 0 = 0 := by
  simp [List.getD_eq_getElem?_getD, List.getElem?_eq_none h]

/-- Bytes after the first k blocks do not matter. -/
theorem chain_append (h : Regs) (l r : List Byte) {k : Nat} (hk : 64 * k ≤ l.length) :
    chain h (l ++ r) k = chain h l k :=
  chain_congr h fun _ hi => getD_append_left (by omega)

/-- The blocks from the j-th on, from the chained state before them. -/
theorem chain_add (h : Regs) (l : List Byte) (j k : Nat) :
    chain h l (j + k) = chain (chain h l j) (l.drop (64 * j)) k := by
  induction k with
  | zero => rfl
  | succ k ih =>
    rw [← Nat.add_assoc, chain, chain, ih]
    refine congrArg (compress _) (blockAt_congr fun i _ => ?_)
    simp only [List.getD_eq_getElem?_getD, List.getElem?_drop]
    congr 2; omega

/-! ### Compressing several blocks -/

theorem compressBlocks_cons (s : State) (b : Block) (bs : List Block) :
    s.compressBlocks (b :: bs) = (s.compressBlock b).compressBlocks bs := by
  simp only [State.compressBlocks, List.foldl_cons]

@[simp] theorem compressBlocks_nil (s : State) : s.compressBlocks [] = s := rfl

theorem compressBlocks_h (s : State) (bs : List Block) : (s.compressBlocks bs).h = bs.foldl compress s.h := by
  induction bs generalizing s with
  | nil => rfl
  | cons b bs ih => rw [compressBlocks_cons, ih, compressBlock_h, List.foldl_cons]

/-- Compressing blocks changes H and the scratch only (42 R139). -/
theorem compressBlocks_frame (s : State) (bs : List Block) :
    (s.compressBlocks bs).len = s.len ∧ (s.compressBlocks bs).fill = s.fill ∧ (s.compressBlocks bs).buf = s.buf ∧
    (s.compressBlocks bs).padblk = s.padblk ∧ (s.compressBlocks bs).phase = s.phase ∧
    (s.compressBlocks bs).reason = s.reason ∧ (s.compressBlocks bs).cmdq = s.cmdq ∧
    (s.compressBlocks bs).rspq = s.rspq := by
  induction bs generalizing s with
  | nil => simp
  | cons b bs ih => simpa [compressBlocks_cons] using ih (s.compressBlock b)

theorem emitAll_eq (s : State) (ws : List Word) : s.emitAll ws = { s with rspq := s.rspq ++ ws } := by
  induction ws generalizing s with
  | nil => simp [State.emitAll]
  | cons w ws ih =>
    have : s.emitAll (w :: ws) = (s.emit w).emitAll ws := rfl
    rw [this, ih]; simp [State.emit]

end Sys2Proof.Machine
end

