-- ==== Sys2Proof/Laws/Absorb.lean ====
section
/-! SUPPORT. What absorbing bytes does: the state follows the byte stream that started at a chained state (44 R174, R177). -/

namespace Sys2Proof.Machine

/-- From the chained state `h` the core has taken in exactly the bytes `l` since a block boundary. -/
structure Tracks (s : State) (h : Regs) (l : List Byte) : Prop where
  fill : s.fill.toNat = l.length % 64
  buf : ∀ j < l.length % 64, s.buf.read j = l.getD (64 * (l.length / 64) + j) 0
  h : s.h = chain h l (l.length / 64)

/-- One byte written at FILL. -/
theorem read_memWrite_one (s : State) (c : Byte) (a : Nat) :
    (s.memWrite s.fill [c]).buf.read a = if s.fill.toNat = a then c else s.buf.read a := by
  simp [Memory.writeBytes, read_write]

/-- BUF after one byte: only the address FILL changes. -/
theorem absorbByte_buf (s : State) (c : Byte) (a : Nat) :
    (s.absorbByte c).buf.read a = if s.fill.toNat = a then c else s.buf.read a := by
  unfold State.absorbByte
  by_cases h : s.fill.toNat + 1 = 64
  · simp only [h, if_true, compressBlock_buf]; exact read_memWrite_one s c a
  · simp only [h, if_false]; exact read_memWrite_one s c a

/-- FILL goes round modulo 64 (44 R174). -/
theorem absorbByte_fill (s : State) (c : Byte) : (s.absorbByte c).fill.toNat = (s.fill.toNat + 1) % 64 := by
  unfold State.absorbByte
  have := s.fill.isLt
  by_cases h : s.fill.toNat + 1 = 64
  · simp [h]
  · simp [h]

/-- What absorbing a byte leaves alone. -/
theorem absorbByte_frame (s : State) (c : Byte) :
    (s.absorbByte c).len = s.len ∧ (s.absorbByte c).padblk = s.padblk ∧ (s.absorbByte c).phase = s.phase ∧
    (s.absorbByte c).reason = s.reason ∧ (s.absorbByte c).cmdq = s.cmdq ∧ (s.absorbByte c).rspq = s.rspq := by
  unfold State.absorbByte
  by_cases h : s.fill.toNat + 1 = 64 <;> simp [h]

theorem absorbByte_wf (s : State) (c : Byte) (h : s.buf.wf = true) : (s.absorbByte c).buf.wf = true := by
  unfold State.absorbByte
  by_cases hf : s.fill.toNat + 1 = 64
  · simp only [hf, if_true, compressBlock_buf]; exact writeBytes_wf _ _ h
  · simp only [hf, if_false]; exact writeBytes_wf _ _ h

/-- H after one byte: the block is compressed exactly when this byte is its 64th. -/
theorem absorbByte_h (s : State) (c : Byte) :
    (s.absorbByte c).h =
      if s.fill.toNat + 1 = 64 then compress s.h (s.memWrite s.fill [c]).bufBlock else s.h := by
  unfold State.absorbByte
  by_cases h : s.fill.toNat + 1 = 64 <;> simp [h]

/-- The stream grows by the byte absorbed. -/
theorem Tracks.absorbByte {s : State} {h : Regs} {l : List Byte} (t : Tracks s h l) (c : Byte) :
    Tracks (s.absorbByte c) h (l ++ [c]) := by
  have hlen : (l ++ [c]).length = l.length + 1 := by simp
  have hlast : (l ++ [c]).getD l.length 0 = c := by
    rw [getD_append_right (Nat.le_refl _)]; simp
  have hfill := t.fill
  by_cases hf : s.fill.toNat + 1 = 64
  · have hm : (l.length + 1) % 64 = 0 := by omega
    have hd : (l.length + 1) / 64 = l.length / 64 + 1 := by omega
    refine ⟨?_, ?_, ?_⟩
    · rw [absorbByte_fill, hlen]; omega
    · intro j hj; rw [hlen] at hj; omega
    · rw [absorbByte_h, if_pos hf, hlen, hd, chain, chain_append _ _ _ (by omega), t.h]
      refine congrArg (compress _) (bufBlock_eq fun j hj => ?_)
      rw [read_memWrite_one]
      split
      · rename_i hj'
        rw [show 64 * (l.length / 64) + j = l.length by omega, hlast]
      · rw [getD_append_left (by omega), t.buf j (by omega)]
  · have hm : (l.length + 1) % 64 = l.length % 64 + 1 := by omega
    have hd : (l.length + 1) / 64 = l.length / 64 := by omega
    refine ⟨?_, ?_, ?_⟩
    · rw [absorbByte_fill, hlen]; omega
    · intro j hj
      rw [hlen] at hj
      rw [absorbByte_buf, hlen, hd]
      split
      · rename_i hj'
        rw [show 64 * (l.length / 64) + j = l.length by omega, hlast]
      · rw [getD_append_left (by omega), t.buf j (by omega)]
    · rw [absorbByte_h, if_neg hf, hlen, hd, chain_append _ _ _ (by omega), t.h]

/-- The stream grows by the chunk absorbed. -/
theorem Tracks.absorb {s : State} {h : Regs} {l : List Byte} (t : Tracks s h l) (chunk : List Byte) :
    Tracks (chunk.foldl State.absorbByte s) h (l ++ chunk) := by
  induction chunk generalizing s l with
  | nil => simpa using t
  | cons c cs ih =>
    have := ih (t.absorbByte c)
    simpa [List.append_assoc] using this

/-- Every state follows the stream of its own valid bytes. -/
theorem Tracks.start (s : State) : Tracks s s.h (s.memRead 0 s.fill.toNat) := by
  have := s.fill.isLt
  refine ⟨?_, ?_, ?_⟩
  · rw [memRead_length]; omega
  · intro j hj
    rw [memRead_length] at *
    rw [getD_memRead_zero _ _ _ (by omega) (by omega)]
    congr 1; omega
  · rw [memRead_length, Nat.div_eq_of_lt this]; rfl

/-- What absorbing a chunk leaves alone. -/
theorem absorb_frame (chunk : List Byte) (s : State) :
    (chunk.foldl State.absorbByte s).len = s.len ∧ (chunk.foldl State.absorbByte s).padblk = s.padblk ∧
    (chunk.foldl State.absorbByte s).phase = s.phase ∧ (chunk.foldl State.absorbByte s).reason = s.reason ∧
    (chunk.foldl State.absorbByte s).cmdq = s.cmdq ∧ (chunk.foldl State.absorbByte s).rspq = s.rspq := by
  induction chunk generalizing s with
  | nil => simp
  | cons c cs ih => simpa [absorbByte_frame] using ih (s.absorbByte c)

theorem absorb_wf (chunk : List Byte) (s : State) (h : s.buf.wf = true) :
    (chunk.foldl State.absorbByte s).buf.wf = true := by
  induction chunk generalizing s with
  | nil => exact h
  | cons c cs ih => exact ih _ (absorbByte_wf s c h)

theorem absorb_fill (chunk : List Byte) (s : State) :
    (chunk.foldl State.absorbByte s).fill.toNat = (s.fill.toNat + chunk.length) % 64 := by
  induction chunk generalizing s with
  | nil => simpa using (Nat.mod_eq_of_lt s.fill.isLt).symm
  | cons c cs ih =>
    rw [List.foldl_cons, ih, absorbByte_fill, List.length_cons]; omega

/-- Byte k of a chunk is written at address (FILL + k) mod 64; an address no byte of it goes to is left alone. -/
theorem absorb_buf_other (chunk : List Byte) (s : State) (a : Nat)
    (h : ∀ k < chunk.length, a ≠ (s.fill.toNat + k) % 64) :
    (chunk.foldl State.absorbByte s).buf.read a = s.buf.read a := by
  induction chunk generalizing s with
  | nil => rfl
  | cons c cs ih =>
    have hlt := s.fill.isLt
    rw [List.foldl_cons, ih, absorbByte_buf, if_neg]
    · have := h 0 (by simp)
      omega
    · intro k hk
      have := h (k + 1) (by simpa using hk)
      rw [absorbByte_fill]; omega

/-- The last 64 bytes of a chunk stand where they were written. -/
theorem absorb_buf_last (chunk : List Byte) (s : State) (k : Nat) (hk : k < chunk.length)
    (h64 : chunk.length ≤ k + 64) :
    (chunk.foldl State.absorbByte s).buf.read ((s.fill.toNat + k) % 64) = chunk.getD k 0 := by
  induction chunk generalizing s k with
  | nil => simp at hk
  | cons c cs ih =>
    have hlt := s.fill.isLt
    simp only [List.length_cons] at hk h64
    rw [List.foldl_cons]
    cases k with
    | zero =>
      rw [absorb_buf_other, absorbByte_buf, if_pos (by omega)]
      · simp
      · intro k hk'
        rw [absorbByte_fill]; omega
    | succ k =>
      have := ih (s.absorbByte c) k (by omega) (by omega)
      rw [absorbByte_fill] at this
      rw [List.getD_cons_succ, ← this]
      congr 1; omega

end Sys2Proof.Machine
end

