-- ==== Sys2Proof/Laws/Assembler.lean ====
section
/-! SUPPORT. What the assembler reads: scanning bare words, strings and comments, numbers, and the slices of DIGEST. -/

namespace Sys2Proof.Machine.Asm

/-! ### Scanning -/

/-- A character that stays inside a bare word. -/
def plain (c : Char) : Prop := c ≠ ';' ∧ isBlank c = false ∧ c ≠ '"'

theorem scan_bare_blank {acc cs : List Char} :
    scan (.bare acc) (' ' :: cs) = (scan .gap cs).map (.bare acc.reverse :: ·) := rfl

/-- Plain characters extend the bare word they stand in. -/
theorem scan_bare_append {w : List Char} (h : ∀ c ∈ w, plain c) (acc cs : List Char) :
    scan (.bare acc) (w ++ cs) = scan (.bare (w.reverse ++ acc)) cs := by
  induction w generalizing acc with
  | nil => rfl
  | cons c w ih =>
    obtain ⟨h₁, h₂, h₃⟩ := h c (by simp)
    simp only [List.cons_append, scan, beq_iff_eq, h₁, h₂, h₃, if_false, Bool.false_eq_true]
    rw [ih (fun d hd => h d (by simp [hd]))]
    simp

/-- A bare word that a blank ends. -/
theorem scan_word {w : List Char} (hw : w ≠ []) (h : ∀ c ∈ w, plain c) (cs : List Char) :
    scan .gap (w ++ ' ' :: cs) = (scan .gap cs).map (.bare w :: ·) := by
  cases w with
  | nil => exact absurd rfl hw
  | cons c w =>
    obtain ⟨h₁, h₂, h₃⟩ := h c (by simp)
    simp only [List.cons_append, scan, beq_iff_eq, h₁, h₂, h₃, if_false, Bool.false_eq_true]
    rw [scan_bare_append (fun d hd => h d (by simp [hd])), scan_bare_blank]
    simp

/-- A bare word at the end of the line. -/
theorem scan_word_end {w : List Char} (hw : w ≠ []) (h : ∀ c ∈ w, plain c) :
    scan .gap w = some [.bare w] := by
  cases w with
  | nil => exact absurd rfl hw
  | cons c w =>
    obtain ⟨h₁, h₂, h₃⟩ := h c (by simp)
    simp only [scan, beq_iff_eq, h₁, h₂, h₃, if_false, Bool.false_eq_true]
    have := scan_bare_append (w := w) (fun d hd => h d (by simp [hd])) [c] []
    rw [List.append_nil] at this
    rw [this]
    simp [scan]

/-- A string: the characters up to the closing quote. -/
theorem scan_quoted_append {s : List Char} (h : ∀ c ∈ s, c ≠ '"') (acc cs : List Char) :
    scan (.quoted acc) (s ++ '"' :: cs) = (scan .gap cs).map (.quoted (acc.reverse ++ s) :: ·) := by
  induction s generalizing acc with
  | nil => simp [scan]
  | cons c s ih =>
    have hc := h c (by simp)
    simp only [List.cons_append, scan, beq_iff_eq, hc, if_false]
    rw [ih (fun d hd => h d (by simp [hd]))]
    simp

theorem scan_string {s : List Char} (h : ∀ c ∈ s, c ≠ '"') (cs : List Char) :
    scan .gap ('"' :: s ++ '"' :: cs) = (scan .gap cs).map (.quoted s :: ·) := by
  show scan (.quoted []) (s ++ '"' :: cs) = _
  rw [scan_quoted_append h]
  rfl

/-- Two ends of a line that read alike, after a blank and inside a bare word. -/
def SameScan (r r' : List Char) : Prop :=
  scan .gap r = scan .gap r' ∧ ∀ acc, scan (.bare acc) r = scan (.bare acc) r'

theorem SameScan.append {u r r' : List Char} (hu : ∀ c ∈ u, c ≠ '"') (h : SameScan r r') :
    SameScan (u ++ r) (u ++ r') := by
  induction u with
  | nil => exact h
  | cons c u ih =>
    have hc := hu c (by simp)
    obtain ⟨i₁, i₂⟩ := ih (fun d hd => hu d (by simp [hd]))
    refine ⟨?_, fun acc => ?_⟩ <;> simp only [List.cons_append, scan, beq_iff_eq, hc, if_false, i₁, i₂]

theorem SameScan.string {s r r' : List Char} (hs : ∀ c ∈ s, c ≠ '"') (h : SameScan r r') :
    SameScan ('"' :: s ++ '"' :: r) ('"' :: s ++ '"' :: r') := by
  refine ⟨by rw [scan_string hs, scan_string hs, h.1], fun acc => ?_⟩
  show (scan (.quoted []) (s ++ '"' :: r)).map _ = (scan (.quoted []) (s ++ '"' :: r')).map _
  rw [scan_quoted_append hs, scan_quoted_append hs, h.1]

/-- Text with whole strings in it: each part is characters without a quote and then a string. -/
theorem SameScan.parts {parts : List (List Char × List Char)} {r r' : List Char}
    (hp : ∀ p ∈ parts, (∀ c ∈ p.1, c ≠ '"') ∧ ∀ c ∈ p.2, c ≠ '"') (h : SameScan r r') :
    SameScan ((parts.flatMap fun p => p.1 ++ '"' :: p.2 ++ ['"']) ++ r)
      ((parts.flatMap fun p => p.1 ++ '"' :: p.2 ++ ['"']) ++ r') := by
  induction parts with
  | nil => exact h
  | cons p parts ih =>
    obtain ⟨h₁, h₂⟩ := hp p (by simp)
    have := (ih fun q hq => hp q (by simp [hq])).string h₂
    simpa using this.append h₁

/-- A comment, and blanks before it, read as nothing. -/
theorem sameScan_comment (n : Nat) (comment : List Char) : SameScan (List.replicate n ' ' ++ ';' :: comment) [] := by
  induction n with
  | zero => exact ⟨rfl, fun _ => rfl⟩
  | succ n ih =>
    refine ⟨ih.1, fun acc => ?_⟩
    show (scan .gap (List.replicate n ' ' ++ ';' :: comment)).map _ = _
    rw [ih.1]
    rfl

/-- Blanks at the end of a line read as nothing. -/
theorem sameScan_blanks (n : Nat) : SameScan (List.replicate n ' ') [] := by
  induction n with
  | zero => exact ⟨rfl, fun _ => rfl⟩
  | succ n ih =>
    refine ⟨ih.1, fun acc => ?_⟩
    show (scan .gap (List.replicate n ' ')).map _ = _
    rw [ih.1]
    rfl

/-! ### Lines, characters and numbers -/

/-- A program of one line. -/
theorem assembleLines_one (l : List Char) : assembleLines [l] = (scan .gap l).bind line := by
  simp only [assembleLines]
  cases (scan .gap l).bind line <;> simp

theorem ascii_of_lt {s : List Char} (h : ∀ c ∈ s, c.toNat < 128) :
    ascii s = some (s.map fun c => BitVec.ofNat 8 c.toNat) := by
  induction s with
  | nil => rfl
  | cons c s ih =>
    rw [ascii, if_pos (h c (by simp)), ih (fun d hd => h d (by simp [hd]))]
    rfl

/-- Digits with known values read as the number they spell. -/
theorem digits_of_values {base : Nat} {cs : List Char} {vs : List Nat}
    (h : List.Forall₂ (fun c v => digitValue c = some v ∧ v < base) cs vs) (acc : Nat) :
    digits base acc cs = some (vs.foldl (fun n v => n * base + v) acc) := by
  induction h generalizing acc with
  | nil => rfl
  | cons hd _ ih => simp only [digits, hd.1, if_pos hd.2, ih, List.foldl_cons]

/-! ### The slices of DIGEST (30 R91) -/

theorem slices_length (n : Nat) (m : List Byte) : (slices n m).length = n := by
  induction n generalizing m with
  | zero => rfl
  | succ n ih => simp only [slices, List.length_cons, ih]

/-- The k-th slice is the 65535 bytes, or what is left of them, from 65535·k up. -/
theorem getD_slices {n k : Nat} (m : List Byte) (h : k < n) :
    (slices n m).getD k [] = (m.drop (65535 * k)).take 65535 := by
  induction n generalizing m k with
  | zero => omega
  | succ n ih =>
    cases k with
    | zero => rfl
    | succ k =>
      simp only [slices, List.getD_cons_succ]
      rw [ih _ (by omega), List.drop_drop]
      congr 2; omega

theorem slices_flatten (n : Nat) (m : List Byte) (h : m.length ≤ 65535 * n) : (slices n m).flatten = m := by
  induction n generalizing m with
  | zero => simpa [slices] using (List.length_eq_zero_iff.mp (by omega)).symm
  | succ n ih => rw [slices, List.flatten_cons, ih _ (by rw [List.length_drop]; omega), List.take_append_drop]

end Sys2Proof.Machine.Asm
end

