-- ==== Sys2Proof/Laws/Decode.lean ====
section
/-! SUPPORT. Lanes and words, the header's fields, packing and unpacking a chunk, and what decoding one command gives. -/

namespace Sys2Proof

/-! ### Lanes (00 R9, 30 R78) -/

/-- The lanes of a word put together from four bytes. -/
theorem lane_be32 (b0 b1 b2 b3 : Byte) :
    lane (be32 b0 b1 b2 b3) 0 = b0 ∧ lane (be32 b0 b1 b2 b3) 1 = b1 ∧ lane (be32 b0 b1 b2 b3) 2 = b2 ∧
    lane (be32 b0 b1 b2 b3) 3 = b3 := by
  refine ⟨?_, ?_, ?_, ?_⟩ <;>
  · apply BitVec.eq_of_getLsbD_eq
    intro i hi
    simp [lane, be32, hi]
    try (interval_cases i <;> simp)

/-- A word is put together from its lanes. -/
theorem be32_lane (w : Word) : be32 (lane w 0) (lane w 1) (lane w 2) (lane w 3) = w := by
  apply BitVec.eq_of_getLsbD_eq
  intro i hi
  simp [lane, be32, hi]
  interval_cases i <;> simp

theorem bytesBE32_be32 (b0 b1 b2 b3 : Byte) : bytesBE32 (be32 b0 b1 b2 b3) = [b0, b1, b2, b3] := by
  obtain ⟨h0, h1, h2, h3⟩ := lane_be32 b0 b1 b2 b3
  simp [bytesBE32, h0, h1, h2, h3]

@[simp] theorem bytesBE32_length (w : Word) : (bytesBE32 w).length = 4 := by simp [bytesBE32]

theorem getD_bytesBE32 (w : Word) {k : Nat} (h : k < 4) : (bytesBE32 w).getD k 0 = lane w k := by
  match k, h with
  | 0, _ => rfl
  | 1, _ => rfl
  | 2, _ => rfl
  | 3, _ => rfl

theorem flatMap_bytesBE32_length (ws : List Word) : (ws.flatMap bytesBE32).length = 4 * ws.length := by
  induction ws with
  | nil => rfl
  | cons w ws ih => simp only [List.flatMap_cons, List.length_append, bytesBE32_length, ih, List.length_cons]; omega

/-- Byte j of consecutive words is lane `j mod 4` of word `j div 4`. -/
theorem getD_flatMap_bytesBE32 (ws : List Word) {j : Nat} (h : j < 4 * ws.length) :
    (ws.flatMap bytesBE32).getD j 0 = lane (ws.getD (j / 4) 0) (j % 4) := by
  induction ws generalizing j with
  | nil => simp at h
  | cons w ws ih =>
    rw [List.flatMap_cons]
    by_cases hj : j < 4
    · rw [Machine.getD_append_left (by simpa using hj), getD_bytesBE32 _ hj, Nat.div_eq_of_lt hj, Nat.mod_eq_of_lt hj]
      rfl
    · simp only [List.length_cons] at h
      rw [Machine.getD_append_right (by simpa using hj), bytesBE32_length, ih (by omega)]
      have h1 : j / 4 = (j - 4) / 4 + 1 := by omega
      have h2 : j % 4 = (j - 4) % 4 := by omega
      rw [h1, h2, List.getD_cons_succ]

/-! ### The header (30 R72) -/

/-- A header is its three fields. -/
theorem word_of_fields (v : Word) : v = opcField v ++ rsvField v ++ cntField v := by
  apply BitVec.eq_of_getLsbD_eq
  intro i hi
  simp only [opcField, rsvField, cntField, BitVec.getLsbD_append, BitVec.getLsbD_extractLsb']
  by_cases h : i < 16
  · simp [h]
  · by_cases h' : i < 28
    · simp [h, show i - 16 < 12 by omega, show 16 + (i - 16) = i by omega]
    · simp [h, show ¬ i - 16 < 12 by omega, show i - 16 - 12 < 4 by omega, show 28 + (i - 16 - 12) = i by omega]

theorem word_eq_of_fields {v w : Word} (h₁ : opcField v = opcField w) (h₂ : rsvField v = rsvField w)
    (h₃ : cntField v = cntField w) : v = w := by
  rw [word_of_fields v, word_of_fields w, h₁, h₂, h₃]

/-- The fields of an ABSORB header. -/
theorem fields_absorb (c : BitVec 16) :
    opcField (matchWord .absorb ||| c.setWidth 32) = 2 ∧ rsvField (matchWord .absorb ||| c.setWidth 32) = 0 ∧
    cntField (matchWord .absorb ||| c.setWidth 32) = c := by
  refine ⟨?_, ?_, ?_⟩ <;>
  · apply BitVec.eq_of_getLsbD_eq
    intro i hi
    simp only [opcField, rsvField, cntField, BitVec.getLsbD_extractLsb', BitVec.getLsbD_or, BitVec.getLsbD_setWidth,
      matchWord]
    interval_cases i <;> simp

theorem absorbHeader_eq {n : Nat} (h : n ≤ 65535) :
    absorbHeader n = matchWord .absorb ||| (BitVec.ofNat 16 n).setWidth 32 := by
  rw [absorbHeader, BitVec.setWidth_ofNat_of_le_of_lt (by omega) (by omega)]

/-- The fields of the header of a chunk of n bytes. -/
theorem fields_absorbHeader {n : Nat} (h : n ≤ 65535) :
    opcField (absorbHeader n) = 2 ∧ rsvField (absorbHeader n) = 0 ∧ (cntField (absorbHeader n)).toNat = n := by
  rw [absorbHeader_eq h]
  obtain ⟨h₁, h₂, h₃⟩ := fields_absorb (BitVec.ofNat 16 n)
  refine ⟨h₁, h₂, ?_⟩
  rw [h₃, BitVec.toNat_ofNat]; omega

/-- The opcode map read backwards (30 R73). -/
theorem opcodeOf_eq_some {c : BitVec 4} {o : Opcode} :
    opcodeOf c = some o ↔
      c = match o with
        | .start => 1
        | .absorb => 2
        | .finalize => 3
        | .status => 4 := by
  revert c
  cases o <;> decide

/-- When a header's check answers a command (30 R75, R76). -/
theorem checkHeader_ok {hdr : Word} {o : Opcode} :
    checkHeader hdr = .ok o ↔
      opcodeOf (opcField hdr) = some o ∧ rsvField hdr = 0 ∧ (o = .absorb ∨ cntField hdr = 0) := by
  unfold checkHeader
  cases h : opcodeOf (opcField hdr) with
  | none => simp
  | some o' =>
    by_cases hb : rsvField hdr ≠ 0 ∨ (o' ≠ .absorb ∧ cntField hdr ≠ 0)
    · simp only [hb, if_true, reduceCtorEq, false_iff, Option.some.injEq]
      rintro ⟨rfl, h₁, h₂⟩
      rcases hb with hb | ⟨hb, hc⟩
      · exact hb h₁
      · exact h₂.elim hb hc
    · simp only [hb, if_false, Except.ok.injEq, Option.some.injEq]
      constructor
      · rintro rfl
        by_cases ha : o' = .absorb <;> simp_all
      · exact fun h => h.1

/-- The headers of the commands without an operand. -/
theorem checkHeader_match (o : Opcode) : checkHeader (matchWord o) = .ok o := by
  cases o <;> decide

theorem dataWords_absorbHeader {n : Nat} (h : n ≤ 65535) : dataWords (absorbHeader n) = (n + 3) / 4 := by
  obtain ⟨h₁, _, h₃⟩ := fields_absorbHeader h
  rw [dataWords, if_pos (by rw [h₁]), h₃]

/-- An ABSORB header has ABSORB's opcode, and no other command's header has data words. -/
theorem dataWords_of_ok {hdr : Word} {o : Opcode} (h : checkHeader hdr = .ok o) (ho : o ≠ .absorb) :
    dataWords hdr = 0 := by
  obtain ⟨h₁, _, _⟩ := checkHeader_ok.mp h
  rw [opcodeOf_eq_some] at h₁
  unfold dataWords
  cases o <;> simp_all

/-! ### The fields as numbers -/

theorem toNat_opcField (hdr : Word) : (opcField hdr).toNat = hdr.toNat / 2 ^ 28 := by
  have := hdr.isLt
  simp [opcField, BitVec.extractLsb'_toNat, Nat.shiftRight_eq_div_pow]; omega

theorem toNat_rsvField (hdr : Word) : (rsvField hdr).toNat = hdr.toNat / 2 ^ 16 % 2 ^ 12 := by
  simp [rsvField, BitVec.extractLsb'_toNat, Nat.shiftRight_eq_div_pow]

theorem toNat_cntField (hdr : Word) : (cntField hdr).toNat = hdr.toNat % 2 ^ 16 := by
  simp [cntField, BitVec.extractLsb'_toNat]

theorem dataWords_eq (hdr : Word) :
    dataWords hdr = if hdr.toNat / 2 ^ 28 = 2 then (hdr.toNat % 2 ^ 16 + 3) / 4 else 0 := by
  have h : opcField hdr = 2 ↔ (opcField hdr).toNat = 2 := by rw [← BitVec.toNat_inj]; rfl
  unfold dataWords
  rw [← toNat_opcField, toNat_cntField]
  simp only [h]

/-! ### Chunks (30 R78, R79) -/

theorem packChunk_length (c : List Byte) : (packChunk c).length = (c.length + 3) / 4 := by
  induction c using packChunk.induct with
  | case5 b0 b1 b2 b3 rest ih => simp only [packChunk, List.length_cons, ih]; omega
  | _ => simp [packChunk]

/-- A chunk is read back from its data words. -/
theorem unpackChunk_packChunk (c : List Byte) : unpackChunk c.length (packChunk c) = c := by
  unfold unpackChunk
  induction c using packChunk.induct with
  | case5 b0 b1 b2 b3 rest ih => simp [packChunk, bytesBE32_be32, ih]
  | _ => simp [packChunk, bytesBE32_be32]

theorem unpackChunk_length {cnt : Nat} {data : List Word} (h : cnt ≤ 4 * data.length) :
    (unpackChunk cnt data).length = cnt := by
  rw [unpackChunk, List.length_take, flatMap_bytesBE32_length]; omega

/-- Byte j of an unpacked chunk. -/
theorem getD_unpackChunk {cnt j : Nat} {data : List Word} (hj : j < cnt) (h : cnt ≤ 4 * data.length) :
    (unpackChunk cnt data).getD j 0 = lane (data.getD (j / 4) 0) (j % 4) := by
  rw [← getD_flatMap_bytesBE32 data (by omega), unpackChunk]
  simp [List.getD_eq_getElem?_getD, hj]

/-! ### Decoding one command (30 R74) -/

theorem decode_cons (hdr : Word) (ws : List Word) :
    decode (hdr :: ws) =
      if ws.length < dataWords hdr then .waiting
      else
        match checkHeader hdr with
        | .error e => .malformed e (ws.drop (dataWords hdr))
        | .ok o => .command (commandOf o hdr (ws.take (dataWords hdr))) (ws.drop (dataWords hdr)) := rfl

/-- A command is the header with exactly the data words it asks for. -/
theorem decode_append {hdr : Word} {data rest : List Word} (h : data.length = dataWords hdr) :
    decode (hdr :: (data ++ rest)) =
      match checkHeader hdr with
      | .error e => .malformed e rest
      | .ok o => .command (commandOf o hdr data) rest := by
  rw [decode_cons, if_neg (by simp [h])]
  rw [← h, List.drop_left, List.take_left]

/-- What decoding to a command says about the words: its own words stand at the head, and the rest follow. -/
theorem decode_command {ws rest : List Word} {i : Instr} (h : decode ws = .command i rest) :
    ∃ hdr data o, ws = hdr :: (data ++ rest) ∧ data.length = dataWords hdr ∧ checkHeader hdr = .ok o ∧
      i = commandOf o hdr data := by
  cases ws with
  | nil => simp [decode] at h
  | cons hdr ws =>
    rw [decode_cons] at h
    split at h
    · simp at h
    · rename_i hl
      cases hc : checkHeader hdr with
      | error e => simp [hc] at h
      | ok o =>
        simp only [hc, Decoded.command.injEq] at h
        obtain ⟨rfl, rfl⟩ := h
        exact ⟨hdr, _, o, by rw [List.take_append_drop], by rw [List.length_take]; omega, hc, rfl⟩

/-- What decoding to a malformed command says about the words. -/
theorem decode_malformed {ws rest : List Word} {e : HeaderError} (h : decode ws = .malformed e rest) :
    ∃ hdr data, ws = hdr :: (data ++ rest) ∧ data.length = dataWords hdr ∧ checkHeader hdr = .error e := by
  cases ws with
  | nil => simp [decode] at h
  | cons hdr ws =>
    rw [decode_cons] at h
    split at h
    · simp at h
    · rename_i hl
      cases hc : checkHeader hdr with
      | ok o => simp [hc] at h
      | error e' =>
        simp only [hc, Decoded.malformed.injEq] at h
        obtain ⟨rfl, rfl⟩ := h
        exact ⟨hdr, _, by rw [List.take_append_drop], by rw [List.length_take]; omega, hc⟩

end Sys2Proof
end

