-- ==== Sys2Proof/Laws/Framing.lean ====
section
/-! SUPPORT. What the padding framer does: the bytes of PAD(N), the final blocks and the buffers FRAME leaves (43 R151 to
R156). -/

namespace Sys2Proof.Machine

@[simp] theorem footer_length (len : BitVec 64) : (footer len).length = 8 := by
  simp [footer, bytesBE64]

@[simp] theorem zeros_length (n : Nat) : (zeros n).length = n := by simp [zeros]

theorem getD_zeros (n i : Nat) : (zeros n).getD i 0 = 0 := by
  by_cases h : i < n <;> simp [zeros, List.getD_eq_getElem?_getD, h]

theorem zeroCount_eq (n : Nat) : zeroCount n = if n % 64 ≤ 55 then 55 - n % 64 else 119 - n % 64 := by
  unfold zeroCount
  split <;> omega

@[simp] theorem pad_length (n : Nat) : (pad n).length = zeroCount n + 9 := by
  simp [pad]

/-- The bytes of PAD(N) (43 R151). -/
theorem getD_pad (n i : Nat) :
    (pad n).getD i 0 =
      if i = 0 then marker
      else if i ≤ zeroCount n then 0
      else (footer (BitVec.ofNat 64 n)).getD (i - (zeroCount n + 1)) 0 := by
  cases i with
  | zero => simp [pad]
  | succ i =>
    rw [pad, List.getD_cons_succ, if_neg (by omega)]
    split
    · rw [getD_append_left (by simpa using by omega), getD_zeros]
    · rw [getD_append_right (by simpa using by omega), zeros_length]
      congr 1; omega

/-- tail = BUF[0..r-1] ++ PAD(N) (43 R155). -/
def State.tail (s : State) : List Byte := s.memRead 0 s.tailLen ++ pad s.len.toNat

theorem tailLen_lt (s : State) : s.tailLen < 64 := Nat.mod_lt _ (by decide)

theorem tail_length (s : State) : s.tail.length = if s.tailLen ≤ 55 then 64 else 128 := by
  have h := zeroCount_eq s.len.toNat
  have hr : s.len.toNat % 64 = s.tailLen := rfl
  have := tailLen_lt s
  rw [State.tail, List.length_append, memRead_length, pad_length, h, hr]
  split <;> omega

theorem getD_tail (s : State) (a : Nat) :
    s.tail.getD a 0 =
      if a < s.tailLen then s.buf.read a
      else if a = s.tailLen then marker
      else if a ≤ s.tailLen + zeroCount s.len.toNat then 0
      else (footer s.len).getD (a - (s.tailLen + zeroCount s.len.toNat + 1)) 0 := by
  have hr := tailLen_lt s
  unfold State.tail
  by_cases h : a < s.tailLen
  · rw [if_pos h, getD_append_left (by simpa using h), getD_memRead_zero _ _ _ h (by omega)]
  · rw [if_neg h, getD_append_right (by simpa using h), memRead_length, getD_pad, BitVec.ofNat_toNat, BitVec.setWidth_eq]
    by_cases h0 : a = s.tailLen
    · simp [h0]
    · rw [if_neg h0, if_neg (by omega)]
      by_cases hz : a ≤ s.tailLen + zeroCount s.len.toNat
      · rw [if_pos hz, if_pos (by omega)]
      · rw [if_neg hz, if_neg (by omega)]
        congr 1; omega

theorem toNat_addr {a : Nat} (h : a < 64) : (BitVec.ofNat 6 a).toNat = a := by
  rw [BitVec.toNat_ofNat]; exact Nat.mod_eq_of_lt h

/-- The bytes r+1 .. of BUF the framer zeroes, after the marker (43 R155). -/
theorem read_marked (s : State) (n a : Nat) (hn : s.tailLen + 1 + n ≤ 64) :
    ((s.memWrite (BitVec.ofNat 6 s.tailLen) [marker]).memWrite (BitVec.ofNat 6 (s.tailLen + 1)) (zeros n)).buf.read a =
      if a = s.tailLen then marker
      else if s.tailLen < a ∧ a ≤ s.tailLen + n then 0
      else s.buf.read a := by
  have hr := tailLen_lt s
  have h1 := toNat_addr hr
  by_cases hn0 : n = 0
  · subst hn0
    simp only [memWrite_buf, zeros, List.replicate_zero, Memory.writeBytes, read_write, h1]
    by_cases ha : a = s.tailLen
    · simp [ha]
    · rw [if_neg (Ne.symm ha), if_neg ha, if_neg (by omega)]
  · have h2 := toNat_addr (a := s.tailLen + 1) (by omega)
    simp only [memWrite_buf]
    rw [read_writeBytes _ _ _ _ (by rw [h2, zeros_length]; exact hn), h2, zeros_length]
    simp only [Memory.writeBytes, read_write, h1]
    by_cases ha : a = s.tailLen
    · rw [if_neg (by omega), if_pos ha.symm, if_pos ha]
    · by_cases hz : s.tailLen < a ∧ a ≤ s.tailLen + n
      · rw [if_pos (by omega), getD_zeros, if_neg ha, if_pos hz]
      · rw [if_neg (by omega), if_neg (Ne.symm ha), if_neg ha, if_neg hz]

/-- BUF after FRAME: the first 64 bytes of the tail (43 R155). -/
theorem frame_buf (s : State) (a : Nat) :
    s.frame.2.buf.read a = if a < 64 then s.tail.getD a 0 else s.buf.read a := by
  have hr := tailLen_lt s
  have hz := zeroCount_eq s.len.toNat
  have hrr : s.len.toNat % 64 = s.tailLen := rfl
  rw [hrr] at hz
  unfold State.frame
  by_cases h : s.tailLen ≤ 55
  · rw [if_pos h] at hz
    simp only [h, if_true, getD_tail, hz]
    have h56 : (56 : BitVec 6).toNat = 56 := by decide
    rw [memWrite_buf, read_writeBytes _ _ _ _ (by rw [h56, footer_length]), read_marked _ _ _ (by omega), h56,
      footer_length]
    by_cases hf : 56 ≤ a ∧ a < 56 + 8
    · rw [if_pos hf, if_pos (by omega), if_neg (by omega), if_neg (by omega), if_neg (by omega)]
      congr 1; omega
    · rw [if_neg hf]
      by_cases ha : a < 64
      · rw [if_pos ha]
        by_cases h0 : a = s.tailLen
        · rw [if_pos h0, if_neg (by omega), if_pos h0]
        · rw [if_neg h0]
          by_cases hl : a < s.tailLen
          · rw [if_neg (by omega), if_pos hl]
          · rw [if_pos (by omega), if_neg hl, if_neg h0, if_pos (by omega)]
      · rw [if_neg ha, if_neg (by omega), if_neg (by omega)]
  · rw [if_neg h] at hz
    simp only [h, if_false, getD_tail, hz]
    rw [read_marked _ _ _ (by omega)]
    by_cases ha : a < 64
    · rw [if_pos ha]
      by_cases h0 : a = s.tailLen
      · rw [if_pos h0, if_neg (by omega), if_pos h0]
      · rw [if_neg h0]
        by_cases hl : a < s.tailLen
        · rw [if_neg (by omega), if_pos hl]
        · rw [if_pos (by omega), if_neg hl, if_neg h0, if_pos (by omega)]
    · rw [if_neg ha, if_neg (by omega), if_neg (by omega)]

/-- The fields FRAME leaves alone. -/
theorem frame_frame (s : State) :
    s.frame.2.h = s.h ∧ s.frame.2.len = s.len ∧ s.frame.2.fill = s.fill ∧ s.frame.2.phase = s.phase ∧
    s.frame.2.reason = s.reason ∧ s.frame.2.cmdq = s.cmdq ∧ s.frame.2.rspq = s.rspq := by
  unfold State.frame
  by_cases h : s.tailLen ≤ 55 <;> simp [h]

theorem frame_wf (s : State) (h : s.buf.wf = true) : s.frame.2.buf.wf = true := by
  unfold State.frame
  by_cases hr : s.tailLen ≤ 55
  · simp only [hr, if_true, memWrite_buf]
    exact writeBytes_wf _ _ (writeBytes_wf _ _ (writeBytes_wf _ _ h))
  · simp only [hr, if_false, memWrite_buf]
    exact writeBytes_wf _ _ (writeBytes_wf _ _ h)

/-- The first final block is BUF as FRAME leaves it. -/
theorem frame_first (s : State) : s.frame.1.head? = some s.frame.2.bufBlock := by
  unfold State.frame
  by_cases h : s.tailLen ≤ 55
  · simp [h]
  · simp only [h, if_false, List.head?_cons, Option.some.injEq]
    exact blockAt_congr fun j hj => by
      rw [Nat.zero_add, getD_memRead_zero _ _ _ hj (Nat.le_refl _), getD_memRead_zero _ _ _ hj (Nat.le_refl _)]

/-- The bytes of the second final block when the framing spans two (43 R155). -/
theorem second_block (s : State) (h : ¬ s.tailLen ≤ 55) :
    blockAt (zeros 56 ++ footer s.len) 0 = blockAt s.tail 64 := by
  have hr := tailLen_lt s
  have hz := zeroCount_eq s.len.toNat
  have hrr : s.len.toNat % 64 = s.tailLen := rfl
  rw [hrr, if_neg h] at hz
  apply blockAt_congr
  intro j hj
  rw [getD_tail, hz, if_neg (by omega), if_neg (by omega), Nat.zero_add]
  by_cases hj' : j < 56
  · rw [if_pos (by omega), getD_append_left (by simpa using hj'), getD_zeros]
  · rw [if_neg (by omega), getD_append_right (by simpa using by omega), zeros_length]
    congr 1; omega

/-- The final blocks, one or two, are the tail cut into blocks (43 R154, R155). -/
theorem frame_blocks (s : State) :
    s.frame.1 = if s.tailLen ≤ 55 then [blockAt s.tail 0] else [blockAt s.tail 0, blockAt s.tail 64] := by
  have hb : s.frame.2.bufBlock = blockAt s.tail 0 :=
    bufBlock_eq fun j hj => by rw [frame_buf, if_pos hj, Nat.zero_add]
  have hf := frame_first s
  rw [hb] at hf
  unfold State.frame at hf ⊢
  by_cases h : s.tailLen ≤ 55
  · simp only [h, if_true, List.head?_cons, Option.some.injEq] at hf ⊢
    rw [hf]
  · simp only [h, if_false, List.head?_cons, Option.some.injEq] at hf ⊢
    rw [hf, second_block s h]

/-- The blocks of a list of whole blocks, compressed in order, are its chained state. -/
theorem frame_chain (s : State) : s.frame.1.foldl compress s.h = chain s.h s.tail (s.tail.length / 64) := by
  rw [frame_blocks, tail_length]
  by_cases h : s.tailLen ≤ 55 <;> simp [h, chain]

end Sys2Proof.Machine
end

