-- ==== Sys2Proof/Laws/Exec.lean ====
section
/-! SUPPORT. What a command and a step can do: dispatch by phase, the effect of each command field by field, and the
inversion of a step. -/

namespace Sys2Proof.Machine

/-! ### Dispatch (44 R170) -/

theorem dispatch_legal {s : State} {o : Opcode} {f : State → State} (h : legal o s.phase = true) :
    s.dispatch o f = f s := by simp [State.dispatch, h]

theorem dispatch_faulted {s : State} {o : Opcode} {f : State → State} (hp : s.phase = .faulted) (ho : o ≠ .status) :
    s.dispatch o f = s := by
  cases o <;> simp_all [State.dispatch, legal]

theorem dispatch_sequence {s : State} {o : Opcode} {f : State → State} (h : legal o s.phase = false)
    (hp : s.phase ≠ .faulted) : s.dispatch o f = s.raiseFault .sequence := by
  simp [State.dispatch, h, hp]

/-- Dispatch carries out the effect, discards the command, or raises SEQUENCE. -/
theorem dispatch_cases (s : State) (o : Opcode) (f : State → State) :
    (legal o s.phase = true ∧ s.dispatch o f = f s) ∨
    (s.phase = .faulted ∧ o ≠ .status ∧ s.dispatch o f = s) ∨
    (s.phase ≠ .faulted ∧ legal o s.phase = false ∧ s.dispatch o f = s.raiseFault .sequence) := by
  by_cases h : legal o s.phase = true
  · exact .inl ⟨h, dispatch_legal h⟩
  · have h' : legal o s.phase = false := by simpa using h
    by_cases hp : s.phase = .faulted
    · have ho : o ≠ .status := by rintro rfl; rw [hp] at h; exact h rfl
      exact .inr (.inl ⟨hp, ho, dispatch_faulted hp ho⟩)
    · exact .inr (.inr ⟨hp, h', dispatch_sequence h' hp⟩)

/-- In which phase a legal command stands. -/
theorem legal_iff (o : Opcode) (p : Phase) :
    legal o p = true ↔
      match o with
      | .start => p = .idle
      | .absorb => p = .active
      | .finalize => p = .active
      | .status => True := by
  cases o <;> cases p <;> simp [legal]

/-- The effect of a command where it is legal. -/
def effectOf : Instr → State → State
  | .start => startEffect
  | .absorb chunk => absorbEffect chunk
  | .finalize => finalizeEffect
  | .status => statusEffect

/-- Every command goes through dispatch, and answers a next state. -/
theorem exec_eq (i : Instr) (s : State) : exec i s = .next (s.dispatch i.opcode (effectOf i)) := by
  cases i <;> rfl

/-! ### ABSORB's effect (44 R173, R174) -/

theorem absorbEffect_over {chunk : List Byte} {s : State} (h : nMax < s.len.toNat + chunk.length) :
    absorbEffect chunk s = s.raiseFault .length := by
  rw [absorbEffect, if_pos h]

/-- What an accepted ABSORB leaves, field by field. -/
theorem absorbEffect_spec {chunk : List Byte} {s : State} (h : s.len.toNat + chunk.length ≤ nMax) :
    (absorbEffect chunk s).h = (chunk.foldl State.absorbByte s).h ∧
    (absorbEffect chunk s).fill = (chunk.foldl State.absorbByte s).fill ∧
    (absorbEffect chunk s).buf = (chunk.foldl State.absorbByte s).buf ∧
    (absorbEffect chunk s).len.toNat = s.len.toNat + chunk.length ∧
    (absorbEffect chunk s).padblk = s.padblk ∧ (absorbEffect chunk s).phase = s.phase ∧
    (absorbEffect chunk s).reason = s.reason ∧ (absorbEffect chunk s).cmdq = s.cmdq ∧
    (absorbEffect chunk s).rspq = s.rspq := by
  obtain ⟨h₁, h₂, h₃, h₄, h₅, h₆⟩ := absorb_frame chunk s
  rw [absorbEffect, if_neg (by omega)]
  refine ⟨rfl, rfl, rfl, ?_, h₂, h₃, h₄, h₅, h₆⟩
  show ((chunk.foldl State.absorbByte s).len + BitVec.ofNat 64 chunk.length).toNat = _
  unfold nMax at h
  rw [h₁, BitVec.toNat_add, BitVec.toNat_ofNat]
  omega

/-! ### FINALIZE's effect (44 R175) -/

/-- What FINALIZE leaves, field by field. -/
theorem finalizeEffect_spec (s : State) :
    (finalizeEffect s).h = chain s.h s.tail (s.tail.length / 64) ∧
    (finalizeEffect s).rspq = s.rspq ++ (finalizeEffect s).h.toList ∧
    (finalizeEffect s).phase = .done ∧ (finalizeEffect s).len = s.len ∧ (finalizeEffect s).fill = s.fill ∧
    (finalizeEffect s).buf = s.frame.2.buf ∧ (finalizeEffect s).reason = s.reason ∧
    (finalizeEffect s).cmdq = s.cmdq := by
  obtain ⟨h₁, h₂, h₃, h₄, h₅, h₆, h₇⟩ := frame_frame s
  obtain ⟨c₁, c₂, c₃, _, _, c₆, c₇, c₈⟩ := compressBlocks_frame s.frame.2 s.frame.1
  have hh : (s.frame.2.compressBlocks s.frame.1).h = chain s.h s.tail (s.tail.length / 64) := by
    rw [compressBlocks_h, h₁, frame_chain]
  simp only [finalizeEffect, emitAll_eq, discardPadBlock_h, discardPadBlock_rspq, discardPadBlock_len,
    discardPadBlock_fill, discardPadBlock_buf, discardPadBlock_reason, discardPadBlock_cmdq, hh, c₁, c₂, c₃, c₆, c₇, c₈,
    h₂, h₃, h₅, h₆, h₇, and_self]

/-! ### A step -/

/-- A step waits, rejects a malformed header, or carries out the command at the head of CMDQ. -/
theorem step_cases {s t : State} (h : step s = .next t) :
    (decode s.cmdq = .waiting ∧ t = s) ∨
    (∃ e rest, decode s.cmdq = .malformed e rest ∧ t = (s.withCmdq rest).rejectHeader e) ∨
    (∃ i rest, decode s.cmdq = .command i rest ∧ t = (s.withCmdq rest).dispatch i.opcode (effectOf i)) := by
  unfold step at h
  cases hd : decode s.cmdq with
  | waiting => simp only [hd, Host.Outcome.next.injEq] at h; exact .inl ⟨rfl, h.symm⟩
  | malformed e rest => simp only [hd, Host.Outcome.next.injEq] at h; exact .inr (.inl ⟨e, rest, rfl, h.symm⟩)
  | command i rest =>
    simp only [hd, exec_eq, Host.Outcome.next.injEq] at h
    exact .inr (.inr ⟨i, rest, rfl, h.symm⟩)

/-- What rejecting a header does. -/
theorem rejectHeader_cases (s : State) (e : HeaderError) :
    (s.phase = .faulted ∧ s.rejectHeader e = s) ∨
    (s.phase ≠ .faulted ∧ s.rejectHeader e = s.raiseFault (reasonOf e)) := by
  by_cases h : s.phase = .faulted <;> simp [State.rejectHeader, h]

/-- Which command is legal in which phase. -/
theorem legal_cases {i : Instr} {p : Phase} (h : legal i.opcode p = true) :
    (i = .start ∧ p = .idle) ∨ (∃ chunk, i = .absorb chunk ∧ p = .active) ∨ (i = .finalize ∧ p = .active) ∨
      i = .status := by
  have := (legal_iff _ _).mp h
  cases i <;> simp_all [Instr.opcode]

/-- What the core makes of a whole command it has taken off CMDQ, `u` being the state without that command: it discards
it, raises a fault, or carries out the effect of one of the four commands. -/
def Outcomes (u t : State) : Prop :=
  t = u ∨
  (u.phase ≠ .faulted ∧ ∃ r, r ≠ .none ∧ t = u.raiseFault r) ∨
  (u.phase = .idle ∧ t = startEffect u) ∨
  (u.phase = .active ∧ ∃ chunk, u.len.toNat + chunk.length ≤ nMax ∧ t = absorbEffect chunk u) ∨
  (u.phase = .active ∧ t = finalizeEffect u) ∨
  t = statusEffect u

theorem rejectHeader_outcomes (u : State) (e : HeaderError) : Outcomes u (u.rejectHeader e) := by
  rcases rejectHeader_cases u e with ⟨_, he⟩ | ⟨hn, he⟩
  · exact .inl he
  · exact .inr (.inl ⟨hn, _, by cases e <;> decide, he⟩)

/-- What the core makes of the well-formed command `i` (44 R170, R173): it discards it, raises SEQUENCE or LENGTH, or
carries out its effect. -/
def CommandOutcomes (i : Instr) (u t : State) : Prop :=
  (i ≠ .status ∧ u.phase = .faulted ∧ t = u) ∨
  (legal i.opcode u.phase = false ∧ u.phase ≠ .faulted ∧ t = u.raiseFault .sequence) ∨
  (∃ chunk, i = .absorb chunk ∧ u.phase = .active ∧ nMax < u.len.toNat + chunk.length ∧ t = u.raiseFault .length) ∨
  (i = .start ∧ u.phase = .idle ∧ t = startEffect u) ∨
  (∃ chunk, i = .absorb chunk ∧ u.phase = .active ∧ u.len.toNat + chunk.length ≤ nMax ∧ t = absorbEffect chunk u) ∨
  (i = .finalize ∧ u.phase = .active ∧ t = finalizeEffect u) ∨
  (i = .status ∧ t = statusEffect u)

theorem dispatch_commandOutcomes (u : State) (i : Instr) :
    CommandOutcomes i u (u.dispatch i.opcode (effectOf i)) := by
  rcases dispatch_cases u i.opcode (effectOf i) with ⟨hl, he⟩ | ⟨hp, ho, he⟩ | ⟨hn, hl, he⟩
  · rw [he]
    rcases legal_cases hl with ⟨rfl, hp⟩ | ⟨chunk, rfl, hp⟩ | ⟨rfl, hp⟩ | rfl
    · exact .inr (.inr (.inr (.inl ⟨rfl, hp, rfl⟩)))
    · by_cases hc : u.len.toNat + chunk.length ≤ nMax
      · exact .inr (.inr (.inr (.inr (.inl ⟨chunk, rfl, hp, hc, rfl⟩))))
      · exact .inr (.inr (.inl ⟨chunk, rfl, hp, by omega, absorbEffect_over (by omega)⟩))
    · exact .inr (.inr (.inr (.inr (.inr (.inl ⟨rfl, hp, rfl⟩)))))
    · exact .inr (.inr (.inr (.inr (.inr (.inr ⟨rfl, rfl⟩)))))
  · exact .inl ⟨by rintro rfl; exact ho rfl, hp, he⟩
  · exact .inr (.inl ⟨hl, hn, he⟩)

theorem dispatch_outcomes (u : State) (i : Instr) : Outcomes u (u.dispatch i.opcode (effectOf i)) := by
  rcases dispatch_commandOutcomes u i with
    ⟨_, _, h⟩ | ⟨_, hn, h⟩ | ⟨_, _, hp, _, h⟩ | ⟨_, h⟩ | ⟨chunk, _, hp, h⟩ | ⟨_, h⟩ | ⟨_, h⟩
  · exact .inl h
  · exact .inr (.inl ⟨hn, _, by decide, h⟩)
  · exact .inr (.inl ⟨by rw [hp]; decide, _, by decide, h⟩)
  · exact .inr (.inr (.inl h))
  · exact .inr (.inr (.inr (.inl ⟨hp, chunk, h⟩)))
  · exact .inr (.inr (.inr (.inr (.inl h))))
  · exact .inr (.inr (.inr (.inr (.inr h))))

/-- A step on a well-formed command does one of the things that command can do. -/
theorem step_command {s t : State} {i : Instr} {rest : List Word} (hd : decode s.cmdq = .command i rest)
    (h : step s = .next t) : CommandOutcomes i (s.withCmdq rest) t := by
  rcases step_cases h with ⟨h', _⟩ | ⟨_, _, h', _⟩ | ⟨j, rest', h', rfl⟩
  · simp [hd] at h'
  · simp [hd] at h'
  · rw [hd] at h'
    cases h'
    exact dispatch_commandOutcomes _ _

/-- A step waits, or takes at least one word off the head of CMDQ and does one of the things above. -/
theorem step_outcomes {s t : State} (h : step s = .next t) :
    (decode s.cmdq = .waiting ∧ t = s) ∨
    ∃ own rest, s.cmdq = own ++ rest ∧ own ≠ [] ∧ decode s.cmdq ≠ .waiting ∧ Outcomes (s.withCmdq rest) t := by
  rcases step_cases h with h | ⟨e, rest, hd, rfl⟩ | ⟨i, rest, hd, rfl⟩
  · exact .inl h
  · obtain ⟨hdr, data, hw, _⟩ := decode_malformed hd
    exact .inr ⟨hdr :: data, rest, hw, by simp, by simp [hd], rejectHeader_outcomes _ _⟩
  · obtain ⟨hdr, data, _, hw, _⟩ := decode_command hd
    exact .inr ⟨hdr :: data, rest, hw, by simp, by simp [hd], dispatch_outcomes _ _⟩

end Sys2Proof.Machine
end

