-- ==== Sys2Proof/Laws/Channels.lean ====
section
/-! SUPPORT. No effect of a command reads the channels: putting other words on them before or after it is the same (20 R60,
R63). -/

namespace Sys2Proof.Machine

/-- The state with other words on the channels. -/
def State.withChannels (s : State) (c r : List Word) : State := { s with cmdq := c, rspq := r }

@[simp] theorem withChannels_self (s : State) : s.withChannels s.cmdq s.rspq = s := rfl

theorem withChannels_withChannels (s : State) (c r c' r' : List Word) :
    (s.withChannels c r).withChannels c' r' = s.withChannels c' r' := rfl

theorem withCmdq_eq (s : State) (ws : List Word) : s.withCmdq ws = s.withChannels ws s.rspq := rfl

theorem hostWrite_eq (s : State) (ws : List Word) : s.hostWrite ws = s.withChannels (s.cmdq ++ ws) s.rspq := rfl

theorem hostRead_eq (s : State) : s.hostRead.2 = s.withChannels s.cmdq s.rspq.tail := rfl

theorem raiseFault_withChannels (s : State) (r : Reason) (c q : List Word) :
    (s.withChannels c q).raiseFault r = (s.raiseFault r).withChannels c q := rfl

theorem startEffect_withChannels (s : State) (c q : List Word) :
    startEffect (s.withChannels c q) = (startEffect s).withChannels c q := rfl

theorem statusEffect_withChannels (s : State) (c q : List Word) :
    statusEffect (s.withChannels c q) = s.withChannels c (q ++ [s.statusWord]) := rfl

theorem withCompression_withChannels (s : State) (w : Schedule) (x h : Regs) (c q : List Word) :
    ((s.withChannels c q).withCompression w x h).discardSchedule =
      ((s.withCompression w x h).discardSchedule).withChannels c q := rfl

theorem compressBlock_withChannels (s : State) (blk : Block) (c q : List Word) :
    (s.withChannels c q).compressBlock blk = (s.compressBlock blk).withChannels c q := by
  have hh : (s.withChannels c q).h = s.h := rfl
  unfold State.compressBlock
  rw [hh]
  exact withCompression_withChannels _ _ _ _ _ _

theorem compressBlocks_withChannels (s : State) (blks : List Block) (c q : List Word) :
    (s.withChannels c q).compressBlocks blks = (s.compressBlocks blks).withChannels c q := by
  induction blks generalizing s with
  | nil => rfl
  | cons b bs ih => rw [compressBlocks_cons, compressBlocks_cons, compressBlock_withChannels, ih]

theorem memWrite_withChannels (s : State) (addr : BitVec 6) (v : List Byte) (c q : List Word) :
    (s.withChannels c q).memWrite addr v = (s.memWrite addr v).withChannels c q := rfl

theorem bufBlock_withChannels (s : State) (c q : List Word) : (s.withChannels c q).bufBlock = s.bufBlock := by
  simp only [State.bufBlock, State.memRead, State.withChannels]

theorem setFill_withChannels (s : State) (f : BitVec 6) (c q : List Word) :
    { s.withChannels c q with fill := f } = ({ s with fill := f } : State).withChannels c q := rfl

theorem absorbByte_withChannels (s : State) (b : Byte) (c q : List Word) :
    (s.withChannels c q).absorbByte b = (s.absorbByte b).withChannels c q := by
  have hf : (s.withChannels c q).fill = s.fill := rfl
  unfold State.absorbByte
  rw [hf]
  by_cases h : s.fill.toNat + 1 = 64
  · simp only [h, if_true, memWrite_withChannels, bufBlock_withChannels, compressBlock_withChannels,
      setFill_withChannels]
  · simp only [h, if_false, memWrite_withChannels, setFill_withChannels]

theorem absorb_withChannels (chunk : List Byte) (s : State) (c q : List Word) :
    chunk.foldl State.absorbByte (s.withChannels c q) = (chunk.foldl State.absorbByte s).withChannels c q := by
  induction chunk generalizing s with
  | nil => rfl
  | cons b bs ih => rw [List.foldl_cons, List.foldl_cons, absorbByte_withChannels, ih]

theorem setLen_withChannels (s : State) (n : BitVec 64) (c q : List Word) :
    { s.withChannels c q with len := (s.withChannels c q).len + n } =
      ({ s with len := s.len + n } : State).withChannels c q := rfl

theorem absorbEffect_withChannels (chunk : List Byte) (s : State) (c q : List Word) :
    absorbEffect chunk (s.withChannels c q) = (absorbEffect chunk s).withChannels c q := by
  have hl : (s.withChannels c q).len = s.len := rfl
  unfold absorbEffect
  rw [hl]
  by_cases h : s.len.toNat + chunk.length > nMax
  · simp only [h, if_true, raiseFault_withChannels]
  · simp only [h, if_false, absorb_withChannels, setLen_withChannels]

theorem setPadblk_withChannels (s : State) (b : Block) (c q : List Word) :
    { s.withChannels c q with padblk := b } = ({ s with padblk := b } : State).withChannels c q := rfl

theorem frame_withChannels (s : State) (c q : List Word) :
    (s.withChannels c q).frame = (s.frame.1, s.frame.2.withChannels c q) := by
  have hr : (s.withChannels c q).tailLen = s.tailLen := rfl
  have hl : (s.withChannels c q).len = s.len := rfl
  unfold State.frame
  rw [hr, hl]
  by_cases h : s.tailLen ≤ 55
  · simp only [h, if_true, memWrite_withChannels, bufBlock_withChannels]
  · simp only [h, if_false, memWrite_withChannels, bufBlock_withChannels, setPadblk_withChannels]

theorem discardPadBlock_withChannels (s : State) (c q : List Word) :
    (s.withChannels c q).discardPadBlock = s.discardPadBlock.withChannels c q := rfl

theorem finish_withChannels (s : State) (c q : List Word) :
    State.emitAll { s.withChannels c q with phase := .done } (s.withChannels c q).h.toList =
      (State.emitAll { s with phase := .done } s.h.toList).withChannels c (q ++ s.h.toList) := by
  rw [emitAll_eq, emitAll_eq]; rfl

theorem finalizeEffect_withChannels (s : State) (c q : List Word) :
    finalizeEffect (s.withChannels c q) =
      (finalizeEffect s).withChannels c (q ++ (finalizeEffect s).h.toList) := by
  have he : (finalizeEffect s).h = ((s.frame.2.compressBlocks s.frame.1).discardPadBlock).h := by
    simp only [finalizeEffect, emitAll_eq]
  rw [he]
  unfold finalizeEffect
  rw [frame_withChannels]
  simp only [compressBlocks_withChannels, discardPadBlock_withChannels]
  exact finish_withChannels _ _ _

theorem rejectHeader_withChannels (e : HeaderError) (s : State) (c q : List Word) :
    (s.withChannels c q).rejectHeader e = (s.rejectHeader e).withChannels c q := by
  have hp : (s.withChannels c q).phase = s.phase := rfl
  unfold State.rejectHeader
  rw [hp]
  split
  · rfl
  · exact raiseFault_withChannels _ _ _ _

/-- Whatever stands on the channels, a command leaves CMDQ alone and appends the same words to RSPQ, and the rest of the
state comes out the same. -/
theorem dispatch_withChannels (i : Instr) (s : State) :
    ∃ (u : State) (e : List Word), ∀ c q,
      (s.withChannels c q).dispatch i.opcode (effectOf i) = u.withChannels c (q ++ e) := by
  have hp : ∀ c q, (s.withChannels c q).phase = s.phase := fun _ _ => rfl
  rcases dispatch_cases s i.opcode (effectOf i) with ⟨hl, _⟩ | ⟨hf, ho, _⟩ | ⟨hn, hl, _⟩
  · have hd : ∀ c q, (s.withChannels c q).dispatch i.opcode (effectOf i) = effectOf i (s.withChannels c q) :=
      fun c q => dispatch_legal (by rw [hp]; exact hl)
    simp only [hd]
    cases i with
    | start => exact ⟨startEffect s, [], fun c q => by rw [List.append_nil]; exact startEffect_withChannels s c q⟩
    | absorb chunk =>
      exact ⟨absorbEffect chunk s, [], fun c q => by rw [List.append_nil]; exact absorbEffect_withChannels chunk s c q⟩
    | finalize => exact ⟨finalizeEffect s, _, finalizeEffect_withChannels s⟩
    | status => exact ⟨s, _, statusEffect_withChannels s⟩
  · exact ⟨s, [], fun c q => by rw [List.append_nil]; exact dispatch_faulted (by rw [hp]; exact hf) ho⟩
  · refine ⟨s.raiseFault .sequence, [], fun c q => ?_⟩
    rw [List.append_nil, dispatch_sequence (by rw [hp]; exact hl) (by rw [hp]; exact hn)]
    exact raiseFault_withChannels _ _ _ _

end Sys2Proof.Machine
end

