-- ==== Sys2Proof/Laws/PerInstr.lean ====
section
/-! SUPPORT. Facts about every command as syntax, one lemma per constructor. -/

namespace Sys2Proof.Laws.SelfDelimiting

/-- A well-formed command's words are a header and exactly the data words that header asks for, the header checks as the
command's opcode, and header and data words spell the command. -/
def Statement (i : Instr) : Prop :=
  i.wf = true →
    ∃ hdr data, encode i = hdr :: data ∧ data.length = dataWords hdr ∧ checkHeader hdr = .ok i.opcode ∧
      commandOf i.opcode hdr data = i

theorem start : Statement .start := fun _ => ⟨matchWord .start, [], rfl, by decide, checkHeader_match _, rfl⟩

theorem absorb (chunk : List Byte) : Statement (.absorb chunk) := by
  intro h
  have hn : chunk.length ≤ 65535 := by simpa [Instr.wf] using h
  obtain ⟨h₁, h₂, h₃⟩ := fields_absorbHeader hn
  refine ⟨absorbHeader chunk.length, packChunk chunk, rfl, ?_, ?_, ?_⟩
  · rw [packChunk_length, dataWords_absorbHeader hn]
  · rw [checkHeader_ok, h₁]
    exact ⟨rfl, h₂, .inl rfl⟩
  · simp only [Instr.opcode, commandOf, h₃, unpackChunk_packChunk]

theorem finalize : Statement .finalize := fun _ => ⟨matchWord .finalize, [], rfl, by decide, checkHeader_match _, rfl⟩

theorem status : Statement .status := fun _ => ⟨matchWord .status, [], rfl, by decide, checkHeader_match _, rfl⟩

end Sys2Proof.Laws.SelfDelimiting
end

