-- ==== Sys2Proof/Tests/Slice0.lean ====
section
/-! SUPPORT. Tests on fixed values, each from 95_test_vectors.md or worked out from the rule named, and for every statement
with hypotheses a witness that meets them. -/

namespace Sys2Proof.Tests

open Sys2Proof.Machine

-- One theorem at a time: some of these evaluate eighty compression steps, and theorems waiting behind one hold a thread each.
set_option Elab.async false

/-! ### Helpers -/

/-- An ACTIVE state that has absorbed `m` (fewer than 64 bytes) since START. -/
def active (m : List Byte) : State :=
  { State.reset with
    h := initialValues
    len := BitVec.ofNat 64 m.length
    fill := BitVec.ofNat 6 m.length
    buf := Memory.writeBytes [] 0 m
    phase := .active }

/-- A FAULTED state. -/
def faulted (r : Reason) : State := { active [] with phase := .faulted, reason := r }

/-- A field of a next state. -/
def out {α : Type} (f : State → α) : Host.Outcome State Fault Refusal → Option α
  | .next s => some (f s)
  | .fault _ => none
  | .refused _ => none

/-- "abc". -/
def abc : List Byte := [0x61, 0x62, 0x63]

/-- The single final block of "abc" (V-EXP-1). -/
def abcBlock : Block := blockAt (abc ++ [0x80] ++ List.replicate 59 0 ++ [0x18]) 0

/-! ### Well-formedness: an ill-formed term for the check -/

theorem wf_replicate (n : Nat) : (Instr.absorb (List.replicate n 0)).wf = decide (n ≤ 65535) := by
  simp only [Instr.wf, List.length_replicate]

theorem test_wf_refuses_long_chunk : (Instr.absorb (List.replicate 65536 0)).wf = false :=
  (wf_replicate 65536).trans (by decide)

theorem test_wf_accepts_longest_chunk : (Instr.absorb (List.replicate 65535 0)).wf = true :=
  (wf_replicate 65535).trans (by decide)

/-! ### Decoding words written out from 30_encoding.md R72, R73, R78 (V-CMD-1) -/

/-- OPC 0001, RSV and CNT zero. -/
theorem test_decode_start : decode [0b00010000000000000000000000000000] = .command .start [] := by decide

/-- OPC 0010, CNT 3; lanes 61 62 63, the fourth unused and not zero (V-CMD-6). -/
theorem test_decode_absorb :
    decode [0b00100000000000000000000000000011, 0x616263FF, 0x40000000] = .command (.absorb abc) [0x40000000] := by
  decide

/-- OPC 0011. -/
theorem test_decode_finalize : decode [0b00110000000000000000000000000000] = .command .finalize [] := by decide

/-- OPC 0100. -/
theorem test_decode_status : decode [0b01000000000000000000000000000000] = .command .status [] := by decide

/-- The fields 27:16 and 15:0 of a header without operand must be 0 (V-CMD-3). -/
theorem test_decode_reserved_fields :
    decode [0x40008000] = .malformed .reservedField [] ∧ decode [0x18000000] = .malformed .reservedField [] := by
  decide

/-- 0x50000001 is ILLEGAL_OPC, one word long (60 R213). -/
theorem test_decode_reserved_opcode : decode [0x50000001, 0x10000000] = .malformed .illegalOpc [0x10000000] := by
  decide

/-- ABSORB of 8 bytes with one data word waits (P7). -/
theorem test_decode_waits : decode [0x20000008, 0x61626364] = .waiting := by decide

theorem test_encode_absorb_abcde :
    encode (.absorb [0x61, 0x62, 0x63, 0x64, 0x65]) = [0x20000005, 0x61626364, 0x65000000] := by decide

/-- A table word with CNT = 5 gets two zero data words. -/
theorem test_table_words : decodeTableWord 32 0x20000005 = some (.absorb [0, 0, 0, 0, 0]) := by decide

/-- With 64 bits given, the second word is bits 63:32. -/
theorem test_table_words_64 : decodeTableWord 64 0x6162630020000003 = some (.absorb abc) := by decide

/-! ### Primitives (V-PRIM-1, V-PRIM-2, V-PRIM-3) -/

theorem test_rotations :
    rotl 0x80000000 1 = 0x00000001 ∧ rotl 0x12345678 5 = 0x468ACF02 ∧ rotl 0x12345678 30 = 0x048D159E ∧
    rotr 0x12345678 2 = 0x048D159E ∧ rotr 0x00000001 1 = 0x80000000 := by decide

theorem test_round_functions :
    ch 0xF0F0F0F0 0xFF00FF00 0x0F0F0F0F = 0xFF0FFF0F ∧ parity 0xF0F0F0F0 0xFF00FF00 0x0F0F0F0F = 0x00FF00FF ∧
    maj 0xFFFFFFFF 0x12345678 0x9ABCDEF0 = 0x9ABCDEF8 := by decide

theorem test_add32_wraps : add32 0xFFFFFFFF 1 = 0 ∧ add32 0xC3D2E1F0 0x5A827999 = 0x1E555B89 := by decide

/-! ### Schedule and compression (V-EXP-1, V-CMP-1) -/

theorem test_expand_abc :
    Schedule.word (expand abcBlock) 0 = 0x61626380 ∧ Schedule.word (expand abcBlock) 15 = 0x00000018 ∧
    Schedule.word (expand abcBlock) 16 = 0xC2C4C700 ∧ Schedule.word (expand abcBlock) 79 = 0x822E0879 := by
  decide +kernel

/-- One step in each round: the rows 0, 20, 40 and 60 of V-CMP-1 from the rows before them. -/
theorem test_steps_abc :
    roundStep (expand abcBlock) 0 initialValues = ⟨0x0116FC33, 0x67452301, 0x7BF36AE2, 0x98BADCFE, 0x10325476⟩ ∧
    (roundStep (expand abcBlock) 20 ⟨0xFD9E1D7D, 0xDC64901D, 0x20AA99CA, 0xD3A49608, 0xC82F758B⟩).a = 0x1A37B0CA ∧
    (roundStep (expand abcBlock) 40 ⟨0x32DE1CBA, 0x4C986405, 0xF718E5CF, 0x03D447F6, 0xF72EEC32⟩).a = 0xFC87DEDF ∧
    (roundStep (expand abcBlock) 60 ⟨0x3F52DE5A, 0x09D785FD, 0x3498BFD4, 0xF211824F, 0xD79915AB⟩).a = 0xD756C147 := by
  decide +kernel

theorem test_compress_abc :
    compress initialValues abcBlock = ⟨0xA9993E36, 0x4706816A, 0xBA3E2571, 0x7850C26C, 0x9CD0D89D⟩ := by
  decide +kernel

/-! ### Framing and formatting (V-PAD-1, V-PAD-2, 45 R200, R202) -/

theorem test_zero_count :
    zeroCount 0 = 55 ∧ zeroCount 55 = 0 ∧ zeroCount 56 = 63 ∧ zeroCount 63 = 56 ∧ zeroCount 1000 = 15 := by decide

theorem test_footer :
    footer 56 = [0, 0, 0, 0, 0, 0, 0x01, 0xC0] ∧
    footer 2305843009213693951 = [0xFF, 0xFF, 0xFF, 0xFF, 0xFF, 0xFF, 0xFF, 0xF8] := by decide

/-- "a" × 56: the marker at BUF[56], the footer in the second block (V-PAD-2). -/
theorem test_frame_two_blocks :
    (active (List.replicate 56 0x61)).frame.1.map Vector.toList =
      [List.replicate 56 0x61 ++ [0x80] ++ List.replicate 7 0, List.replicate 62 0 ++ [0x01, 0xC0]] := by decide +kernel

theorem test_toHex :
    toHex (serialize ⟨0xA9993E36, 0x4706816A, 0xBA3E2571, 0x7850C26C, 0x9CD0D89D⟩) =
      "a9993e364706816aba3e25717850c26c9cd0d89d".toList := by decide +kernel

/-! ### The commands -/

/-- START after reset, then STATUS reads 0x00000001 (44 R171). -/
theorem test_start :
    out (fun t => (t.h, t.len, t.fill, t.phase, t.statusWord)) (exec .start State.reset) =
      some (initialValues, 0, 0, .active, 0x00000001) := by decide +kernel

/-- START in DONE faults SEQUENCE (P4). -/
theorem test_start_in_done :
    out State.statusWord (exec .start { active [] with phase := .done }) = some 0x00000033 := by decide +kernel

/-- ABSORB "abc": FILL = 3, LEN = 3, BUF[0..2] = 61 62 63 (44 R174). -/
theorem test_absorb_abc :
    out (fun t => (t.statusWord, t.len, t.memRead 0 3)) (exec (.absorb abc) (active [])) = some (0x00000301, 3, abc) := by
  decide +kernel

/-- The byte that completes a block of 64 "a" compresses it (V-CMP-2). -/
theorem test_absorb_completes_block :
    out (fun t => (t.statusWord, t.h)) (exec (.absorb [0x61]) (active (List.replicate 63 0x61))) =
      some (0x00000001, ⟨0xDA4968EB, 0x2E377C1F, 0x884E8F52, 0x83524BEB, 0xE74EBDBD⟩) := by decide +kernel

/-- FINALIZE of "abc" emits its digest (V-SRC-2). -/
theorem test_finalize_abc :
    out State.rspq (exec .finalize (active abc)) =
      some [0xA9993E36, 0x4706816A, 0xBA3E2571, 0x7850C26C, 0x9CD0D89D] := by decide +kernel

/-- FINALIZE of "a" × 56 compresses two blocks (V-DIG-1). -/
theorem test_finalize_two_blocks :
    out (fun t => (t.rspq, t.statusWord)) (exec .finalize (active (List.replicate 56 0x61))) =
      some ([0xC2DB330F, 0x6083854C, 0x99D4B5BF, 0xB6E8F29F, 0x201BE699], 0x00003802) := by decide +kernel

/-- STATUS in FAULTED with FILL = 2 (V-CMD-2, P5). -/
theorem test_status_faulted :
    out State.rspq (exec .status { active [0x61, 0x62] with phase := .faulted, reason := .reservedField }) =
      some [0x00000223] := by decide +kernel

/-- LENGTH at LEN = N_MAX - 2 (V-CMD-5). -/
theorem test_length_limit :
    let s : State := { active [] with len := 2305843009213693949, fill := 61 }
    out State.statusWord (exec (.absorb abc) s) = some 0x00003D43 ∧
    out State.statusWord (exec (.absorb [0x61, 0x62]) s) = some 0x00003F01 := by decide +kernel

/-! ### Steps -/

/-- A malformed ABSORB: its data word is consumed (P5). -/
theorem test_step_malformed_absorb :
    out (fun t => (t.statusWord, t.cmdq))
        (step { active [0x61, 0x62] with cmdq := [0x20010002, 0x63640000, 0x50000000] }) =
      some (0x00000223, [0x50000000]) := by decide +kernel

/-- In FAULTED a malformed STATUS is discarded without a response (P5). -/
theorem test_step_faulted_discards :
    out (fun t => (t.statusWord, t.cmdq, t.rspq)) (step { faulted .sequence with cmdq := [0x40000001] }) =
      some (0x00000033, [], []) := by decide +kernel

/-- The word of a table row, placed by `withFetchWord` after reset, is what the next step runs. -/
theorem test_step_fetch_word :
    out (fun t => (t.phase, t.cmdq)) (step (State.reset.withFetchWord 32 0x10000000)) = some (.active, []) := by
  decide +kernel

/-- ABSORB in IDLE faults SEQUENCE and its data words are consumed (60 R213). -/
theorem test_step_absorb_in_idle :
    out (fun t => (t.statusWord, t.cmdq)) (step (State.reset.withFetchWord 32 0x20000001)) =
      some (0x00000033, []) := by decide +kernel

/-! ### The assembler (30 R88 to R91) -/

theorem test_assemble_absorb :
    Asm.assembleLines [['A', 'B', 'S', 'O', 'R', 'B', ' ', '"', 'a', 'b', 'c', '"', ' ', ';', 'x']] =
      some [0x20000003, 0x61626300] := by decide +kernel

theorem test_assemble_word :
    Asm.assembleLines [[' ', '.', 'w', 'o', 'r', 'd', ' ', '0', 'x', '2', '0', '1', '0', '0', '0', '0', '1'], []] =
      some [0x20100001] := by decide +kernel

theorem test_assemble_repeat :
    Asm.assembleLines
        [['A', 'B', 'S', 'O', 'R', 'B', ' ', 'r', 'e', 'p', 'e', 'a', 't', ' ', '"', 'a', 'b', '"', ' ', '2'],
          ['A', 'B', 'S', 'O', 'R', 'B', ' ', 'b', 'y', 't', 'e', 's'],
          ['A', 'B', 'S', 'O', 'R', 'B', ' ', 'b', 'y', 't', 'e', 's', ' ', '0', 'x', 'A', '0', ' ', '0', 'x', '0', 'f']] =
      some [0x20000004, 0x61626162, 0x20000000, 0x20000002, 0xA00F0000] := by decide +kernel

theorem test_assemble_digest_empty :
    Asm.assembleLines [['D', 'I', 'G', 'E', 'S', 'T', ' ', 'z', 'e', 'r', 'o', 's', ' ', '0']] =
      some [0x10000000, 0x30000000] := by decide +kernel

theorem test_split_lines :
    Asm.splitLines ['a', '\n', '\n', 'b'] = [['a'], [], ['b']] := by decide

/-! ### Witnesses: each meets all the hypotheses of the statement it names -/

theorem witness_RotationsAreCyclic : (1 ≤ 1 ∧ 1 ≤ 31 ∧ 0 < 32) ∧ (1 ≤ 31 ∧ 31 ≤ 31 ∧ 31 < 32) := by decide

theorem witness_RoundFunctionsBitByBit : 0 < 32 ∧ 31 < 32 := by decide

theorem witness_ScheduleStartsFromTheBlock : 0 < 16 ∧ 15 < 16 := by decide

theorem witness_ScheduleRecurrence : (16 ≤ 16 ∧ 16 ≤ 79) ∧ (16 ≤ 79 ∧ 79 ≤ 79) := by decide

/-- The schedule of the all-zero block is all zero (V-EXP-3), so the zero schedule meets both hypotheses. -/
theorem witness_ScheduleIsDetermined :
    (∀ t < 16, Schedule.word (Vector.replicate 80 0) t = Block.word zeroBlock t) ∧
    ∀ t < 80, 16 ≤ t → t ≤ 79 →
      Schedule.word (Vector.replicate 80 0) t = nextWord (Vector.replicate 80 0) t := by decide +kernel

theorem witness_StepOfEachRound : 0 < 80 ∧ 19 < 20 ∧ ¬ 20 < 20 ∧ 39 < 40 ∧ ¬ 40 < 40 ∧ 59 < 60 ∧ ¬ 60 < 60 ∧ 79 < 80 := by
  decide

/-- "abc", with its first and last zero bytes and the ends of its footer. -/
theorem witness_PaddedMessageIsWholeBlocks :
    abc.length ≤ 2 ^ 61 - 1 ∧ (1 ≤ 1 ∧ 1 ≤ zeroCount abc.length) ∧ (1 ≤ 52 ∧ 52 ≤ zeroCount abc.length) ∧ 0 < 8 ∧ 7 < 8 := by
  decide

/-- R151 and R153 for N = 3: 0x80, 52 bytes 0x00, and the footer 00 00 00 00 00 00 00 18. -/
theorem test_pad_abc : pad 3 = 0x80 :: (List.replicate 59 0x00 ++ [0x18]) := by decide

theorem witness_FooterIsTheExactBitLength : 2 ^ 61 - 1 ≤ 2 ^ 61 - 1 ∧ 0 < 8 ∧ 7 < 8 := by decide

/-- P = 55 and P = 119 both fill the block of N = 0, and P = 0 that of N = 55. -/
theorem witness_ZeroCountIsLeast :
    (0 + 1 + 55 + 8) % 64 = 0 ∧ (0 + 1 + 119 + 8) % 64 = 0 ∧ (55 + 1 + 0 + 8) % 64 = 0 := by decide

theorem witness_DigestBytes : 4 < 5 ∧ 3 < 4 := by decide

/-- The first and the last byte of a digest. -/
theorem witness_HexRendering : 0 < (serialize initialValues).length ∧ 19 < (serialize initialValues).length := by decide

theorem witness_CanonicalStoresAreEqual :
    Memory.wf [(0, 0x61), (63, 0x62)] = true ∧ ∀ a, Memory.read [(0, 0x61), (63, 0x62)] a = Memory.read [(0, 0x61), (63, 0x62)] a :=
  ⟨by decide, fun _ => rfl⟩

/-- Both sides of the split: too few words, and enough; with an opcode other than ABSORB's, and with ABSORB's. -/
theorem witness_HeaderAloneSplitsTheStream :
    ([0x61626364] : List Word).length < ((0x20000005 : Word).toNat % 2 ^ 16 + 3) / 4 ∧
    (0x20000005 : Word).toNat / 2 ^ 28 = 2 ∧ (0x30000005 : Word).toNat / 2 ^ 28 ≠ 2 ∧
    ((0x20000005 : Word).toNat % 2 ^ 16 + 3) / 4 ≤ ([0x61626364, 0x65000000] : List Word).length := by decide

theorem witness_ChunkByteLanes : ([0x61626364, 0x65000000] : List Word).length = (5 + 3) / 4 ∧ 4 < 5 := by decide

theorem witness_UnusedLanesAreIgnored :
    opcField 0x20000003 = 2 ∧ ([0x616263FF] : List Word).length = dataWords 0x20000003 ∧
    ([0x61626300] : List Word).length = dataWords 0x20000003 ∧
    ∀ j < (cntField 0x20000003).toNat,
      lane (([0x616263FF] : List Word).getD (j / 4) 0) (j % 4) =
        lane (([0x61626300] : List Word).getD (j / 4) 0) (j % 4) := by decide

theorem witness_CommandLengths : (Instr.absorb abc).wf = true := by decide

theorem witness_DecodeOfEncode : (Instr.absorb abc).wf = true ∧ Instr.start.wf = true := by decide

theorem witness_EncodeOfDecode : decode [0x20000003, 0x616263FF, 0x40000000] = .command (.absorb abc) [0x40000000] := by
  decide

/-- Lane 2 is the last of "abc", and lane 3 of its one data word is unused. -/
theorem witness_AssemblerWords :
    abc.length ≤ 65535 ∧ 65535 < (List.replicate 65536 (0 : Byte)).length ∧
    2 < 4 * [(0x61626300 : Word)].length ∧ 3 < 4 * [(0x61626300 : Word)].length ∧
    Asm.chunk [.quoted ['a', 'b', 'c']] = some abc := by
  refine ⟨by decide, ?_, by decide, by decide, by decide⟩
  rw [List.length_replicate]; decide

/-- A string with a semicolon in it, the empty one, 0x0A and 0x0a, the digits of 07 and of 0, and a line with a string
before a comment. -/
theorem witness_ChunkForms :
    (∀ c ∈ ['a', ';'], c.toNat < 128 ∧ c ≠ '"') ∧ (∀ c ∈ ([] : List Char), c.toNat < 128 ∧ c ≠ '"') ∧
    '0' = ['0', '1', '2', '3', '4', '5', '6', '7', '8', '9', 'A', 'B', 'C', 'D', 'E', 'F'].getD ((0x0A : Byte).toNat / 16) '?' ∧
    'A' = ['0', '1', '2', '3', '4', '5', '6', '7', '8', '9', 'A', 'B', 'C', 'D', 'E', 'F'].getD ((0x0A : Byte).toNat % 16) '?' ∧
    'a' = ['0', '1', '2', '3', '4', '5', '6', '7', '8', '9', 'a', 'b', 'c', 'd', 'e', 'f'].getD ((0x0A : Byte).toNat % 16) '?' ∧
    ([0, 7] : List Nat) ≠ [] ∧ (∀ d ∈ [0, 7], d < 10) ∧ (∀ d ∈ [0], d < 10) ∧
    (∀ p ∈ [(['A', 'B', 'S', 'O', 'R', 'B', ' '], ['a', ';'])], (∀ c ∈ p.1, c ≠ '"') ∧ ∀ c ∈ p.2, c ≠ '"') ∧
    ∀ c ∈ [' '], c ≠ '"' := by simp

/-- The digits of 0x20F0000a, in both letter cases. -/
theorem witness_WordDirective :
    ['2', '0', 'F', '0', '0', '0', '0', 'a'].length = 8 ∧
    ∀ k < 8,
      ['2', '0', 'F', '0', '0', '0', '0', 'a'].getD k '?' =
          ['0', '1', '2', '3', '4', '5', '6', '7', '8', '9', 'A', 'B', 'C', 'D', 'E', 'F'].getD
            ((0x20F0000A : Word).extractLsb' (28 - 4 * k) 4).toNat '?' ∨
        ['2', '0', 'F', '0', '0', '0', '0', 'a'].getD k '?' =
          ['0', '1', '2', '3', '4', '5', '6', '7', '8', '9', 'a', 'b', 'c', 'd', 'e', 'f'].getD
            ((0x20F0000A : Word).extractLsb' (28 - 4 * k) 4).toNat '?' := by decide

/-- The empty chunk, which has no slice, and "abc". -/
theorem witness_DigestExpansion :
    Asm.chunk [.bare ['b', 'y', 't', 'e', 's']] = some [] ∧ Asm.chunk [.quoted ['a', 'b', 'c']] = some abc ∧
    0 < (slices 1 abc).length ∧ 0 + 1 < (slices 2 abc).length := by decide

theorem witness_StepRunsTheDecodedCommand :
    decode { active [] with cmdq := [0x20000003, 0x61626300, 0x30000000] }.cmdq = .command (.absorb abc) [0x30000000] := by
  decide +kernel

theorem witness_IncompleteCommandWaits :
    decode { active [] with cmdq := [0x20000008, 0x61626364] }.cmdq = .waiting ∧ decode State.reset.cmdq = .waiting := by
  decide +kernel

/-- The boundary opcodes 0x0, 0x5 and 0xF. -/
theorem witness_ReservedOpcodeFaults :
    { State.reset with cmdq := [0x5FFFFFFF] }.cmdq = 0x5FFFFFFF :: [] ∧ State.reset.phase ≠ .faulted ∧
    (0x0FFFFFFF : Word).toNat / 2 ^ 28 = 0 ∧ 5 ≤ (0x5FFFFFFF : Word).toNat / 2 ^ 28 ∧
    5 ≤ (0xF0000000 : Word).toNat / 2 ^ 28 := by decide

/-- RSV alone on an ABSORB with a data word, and CNT alone on the boundary opcodes 1 and 4. -/
theorem witness_ReservedFieldFaults :
    { active [] with cmdq := [0x20010002, 0x63640000] }.cmdq = 0x20010002 :: ([0x63640000] ++ []) ∧
    (active []).phase ≠ .faulted ∧
    1 ≤ (0x20010002 : Word).toNat / 2 ^ 28 ∧ (0x20010002 : Word).toNat / 2 ^ 28 ≤ 4 ∧
    (0x20010002 : Word).toNat / 2 ^ 16 % 2 ^ 12 ≠ 0 ∧
    ([0x63640000] : List Word).length = ((0x20010002 : Word).toNat % 2 ^ 16 + 3) / 4 ∧
    (0x10000001 : Word).toNat / 2 ^ 28 = 1 ∧ (0x10000001 : Word).toNat % 2 ^ 16 ≠ 0 ∧
    (0x40000001 : Word).toNat / 2 ^ 28 = 4 ∧ (0x40000001 : Word).toNat % 2 ^ 16 ≠ 0 := by decide +kernel

theorem witness_StartCommand :
    State.reset.phase = .idle ∧ (active []).phase = .active ∧ { active [] with phase := .done }.phase = .done ∧
    (faulted .length).phase = .faulted := by decide

/-- A chunk that goes past the block boundary, and one that ends exactly at N_MAX. -/
theorem witness_AbsorbCommand :
    ((active abc).phase = .active ∧ (active abc).len.toNat + (List.replicate 70 (0x61 : Byte)).length ≤ 2 ^ 61 - 1) ∧
    ({ active [] with len := 2305843009213693949, fill := 61 }.len.toNat + ([0x61, 0x62] : List Byte).length = 2 ^ 61 - 1) := by
  decide +kernel

theorem witness_AbsorbOfNothing : (active abc).phase = .active ∧ (active abc).len.toNat ≤ 2 ^ 61 - 1 := by decide +kernel

theorem witness_AbsorbLengthFault :
    { active [] with len := 2305843009213693949, fill := 61 }.phase = .active ∧
    2 ^ 61 - 1 < { active [] with len := 2305843009213693949, fill := 61 }.len.toNat + abc.length := by decide +kernel

/-- r = 3 (one final block) and r = 56 (two). -/
theorem witness_FinalizeCommand :
    ((active abc).phase = .active ∧ (active abc).len.toNat % 64 = 3) ∧
    (active (List.replicate 56 0x61)).phase = .active ∧ (active (List.replicate 56 0x61)).len.toNat % 64 = 56 := by
  decide +kernel

theorem witness_SequenceFaults :
    ((active []).phase = .active ∨ (active []).phase = .done) ∧ (State.reset.phase = .idle ∨ State.reset.phase = .done) ∧
    (∃ chunk, Instr.absorb abc = .absorb chunk) := by
  exact ⟨by decide, by decide, abc, rfl⟩

theorem witness_FaultedDiscards :
    (faulted .sequence).phase = .faulted ∧
    decode { faulted .sequence with cmdq := [0x40000001] }.cmdq = .malformed .reservedField [] ∧
    decode { faulted .sequence with cmdq := [0x10000000] }.cmdq = .command .start [] ∧ Instr.start ≠ .status := by
  decide +kernel

theorem inv_active : (active abc).Inv where
  memory := by decide +kernel
  length := fun _ => by decide +kernel
  idle := by decide
  reason := by decide

theorem inv_reset : State.reset.Inv where
  memory := by decide
  length := by decide
  idle := by decide
  reason := by decide

theorem witness_InvariantAtResetAndUnderTheHost : (active abc).Inv := inv_active

/-- An ABSORB in a state with the invariant, and the state it steps to. -/
theorem witness_StepKeepsTheInvariant :
    { active abc with cmdq := [0x20000003, 0x61626300] }.Inv ∧
    ∃ t, step { active abc with cmdq := [0x20000003, 0x61626300] } = .next t :=
  ⟨⟨inv_active.memory, inv_active.length, inv_active.idle, inv_active.reason⟩, _, rfl⟩

theorem witness_FaultIsSticky :
    (faulted .sequence).phase = .faulted ∧ ∃ t, step { faulted .sequence with cmdq := [0x40000000] } = .next t :=
  ⟨by decide, _, rfl⟩

/-- One move out of each phase: IDLE and ACTIVE by START, DONE by a fault, FAULTED to itself. -/
theorem witness_PhaseMoves :
    (State.reset.phase = .idle ∧ ∃ t, step (State.reset.withFetchWord 32 0x10000000) = .next t) ∧
    ((active []).phase = .active ∧ ∃ t, step ((active []).withFetchWord 32 0x10000000) = .next t) ∧
    ({ active [] with phase := .done }.phase = .done ∧
      ∃ t, step ({ active [] with phase := .done }.withFetchWord 32 0x30000000) = .next t) ∧
    ((faulted .length).phase = .faulted ∧ ∃ t, step ((faulted .length).withFetchWord 32 0x40000000) = .next t) :=
  ⟨⟨rfl, _, rfl⟩, ⟨rfl, _, rfl⟩, ⟨rfl, _, rfl⟩, rfl, _, rfl⟩

/-- START from reset, an ABSORB whose one byte completes a block, and FINALIZE of nothing each change H. -/
theorem witness_WritersOfTheChainedState :
    out (fun t => decide (t.h ≠ State.reset.h)) (step (State.reset.withFetchWord 32 0x10000000)) = some true ∧
    out (fun t => decide (t.h ≠ initialValues))
        (step ({ active [] with len := 63, fill := 63 }.withFetchWord 32 0x20000001)) = some true ∧
    out (fun t => decide (t.h ≠ initialValues)) (step ((active []).withFetchWord 32 0x30000000)) = some true := by
  decide +kernel

theorem witness_FaultsArePrecise :
    out (fun t => t.phase) (step ((active abc).withFetchWord 32 0x10000000)) = some .faulted ∧
    (active abc).phase ≠ .faulted := by decide +kernel

/-- STATUS, FINALIZE in ACTIVE and an ABSORB, each as a step. -/
theorem witness_ResponsesAreAppended :
    (∃ t, step ((active abc).withFetchWord 32 0x40000000) = .next t) ∧
    (∃ t, step ((active abc).withFetchWord 32 0x30000000) = .next t) ∧
    ∃ t, step ((active abc).withFetchWord 32 0x20000001) = .next t :=
  ⟨⟨_, rfl⟩, ⟨_, rfl⟩, _, rfl⟩

theorem witness_CommandsAreConsumedInOrder :
    (∃ t, step ((active abc).withFetchWord 32 0x20000005) = .next t) ∧ ∃ t, step State.reset = .next t :=
  ⟨⟨_, rfl⟩, _, rfl⟩

theorem witness_HostWriteCommutesWithStep :
    decode ((active abc).withFetchWord 32 0x40000000).cmdq ≠ .waiting ∧
    ∃ t, step ((active abc).withFetchWord 32 0x40000000) = .next t :=
  ⟨by decide +kernel, _, rfl⟩

theorem witness_HostReadCommutesWithStep :
    { (active abc).withFetchWord 32 0x40000000 with rspq := [0x00000001] }.rspq ≠ [] ∧
    ∃ t, step { (active abc).withFetchWord 32 0x40000000 with rspq := [0x00000001] } = .next t :=
  ⟨by decide +kernel, _, rfl⟩

theorem holds_abc : (active abc).Holds abc where
  active := rfl
  len := by decide +kernel
  limit := by decide
  fill := by decide +kernel
  buf := by decide +kernel
  h := rfl

theorem witness_AbsorbExtendsTheMessage :
    State.reset.phase = .idle ∧ (active abc).Holds abc ∧ (abc ++ abc).length ≤ 2 ^ 61 - 1 :=
  ⟨rfl, holds_abc, by decide⟩

theorem witness_FinalizeEmitsTheDigest : (active abc).Holds abc := holds_abc

theorem witness_ChunkInvariance :
    State.reset.phase = .idle ∧ (∀ c ∈ [abc, [], [0x64]], c.length ≤ 65535) ∧
    [abc, [], [0x64]].flatten.length ≤ 2 ^ 61 - 1 := by decide

theorem witness_DigestCommandReturnsTheDigest :
    { State.reset with cmdq := Asm.digest abc ++ [0x40000000] }.phase = .idle ∧ State.reset.reason = .none ∧
    abc.length ≤ 2 ^ 61 - 1 ∧
    { State.reset with cmdq := Asm.digest abc ++ [0x40000000] }.cmdq =
      [0x10000000, 0x20000003, 0x61626300, 0x30000000] ++ [0x40000000] := by decide +kernel

/-- A computation that has ended, with a STATUS behind it. -/
def endState : State :=
  { active [] with phase := .done, rspq := initialValues.toList, cmdq := [0x40000000] }

theorem ended_endState : endState.ended where
  done := rfl
  words := List.infix_rfl
  idle := by decide +kernel

/-- An ACTIVE state with nothing behind FINALIZE; a step from ACTIVE to an end; an end and its next step; and a DONE core
that waits for the data word of an ABSORB. -/
theorem witness_EndOfAComputation :
    ((active abc).phase = .active ∧ (active abc).cmdq = []) ∧
    out (fun t => (t.phase, decide (t.rspq = t.h.toList), t.cmdq)) (step ((active abc).withFetchWord 32 0x30000000)) =
      some (.done, true, []) ∧ (active abc).phase ≠ .done ∧
    endState.ended ∧ out (fun t => t.cmdq) (step endState) = some [] ∧
    decode { endState with cmdq := [0x20000001] }.cmdq = .waiting ∧ { endState with cmdq := [0x20000001] }.cmdq ≠ [] :=
  ⟨⟨rfl, rfl⟩, by decide +kernel, by decide, ended_endState, by decide +kernel, by decide +kernel, by decide +kernel⟩

/-- Two states that differ in a byte of BUF beyond FILL and in the scratch. -/
theorem witness_StepReadsNothingUnspecified :
    (active abc).Inv ∧ { active abc with buf := (active abc).buf.write 9 0x55, work := Regs.all 7 }.Inv ∧
    (active abc).Alike { active abc with buf := (active abc).buf.write 9 0x55, work := Regs.all 7 } := by
  refine ⟨inv_active, ⟨by decide +kernel, fun _ => by decide +kernel, by decide, by decide⟩, ?_⟩
  exact ⟨rfl, rfl, rfl, rfl, rfl, fun _ => ⟨rfl, rfl, by decide +kernel⟩⟩

theorem witness_UnspecifiedResetValuesAreInvisible :
    let r : State := { State.reset with h := Regs.all 0xFFFFFFFF, len := 5, buf := [(0, 0x61)], cmdq := [0x10000000] }
    r.phase = .idle ∧ r.reason = .none ∧ r.fill = 0 ∧ r.buf.wf = true := by decide +kernel

end Sys2Proof.Tests
end

namespace Sys2Proof.Machine

/-! SUPPORT. The proofs of the statements about the state: the invariant, the moves of PHASE, the writers of H, and
STATUS. Each rests on the inversion of a step (`step_outcomes`, `step_command`) and on the effect lemmas behind it. -/

/-! ### The invariant (10 R23, R24, R29) -/

/-- Outside FAULTED no fault has occurred. -/
theorem State.Inv.reason_none {s : State} (hs : s.Inv) (hp : s.phase ≠ .faulted) : s.reason = .none :=
  not_not.mp fun hr => hp (hs.reason.mpr hr)

theorem State.Inv.withCmdq {s : State} (hs : s.Inv) (ws : List Word) : (s.withCmdq ws).Inv :=
  ⟨hs.memory, hs.length, hs.idle, hs.reason⟩

theorem State.Inv.hostWrite {s : State} (hs : s.Inv) (ws : List Word) : (s.hostWrite ws).Inv :=
  ⟨hs.memory, hs.length, hs.idle, hs.reason⟩

theorem State.Inv.hostRead {s : State} (hs : s.Inv) : s.hostRead.2.Inv :=
  ⟨hs.memory, hs.length, hs.idle, hs.reason⟩

theorem State.Inv.statusEffect {s : State} (hs : s.Inv) : (statusEffect s).Inv :=
  ⟨hs.memory, hs.length, hs.idle, hs.reason⟩

theorem State.Inv.raiseFault {s : State} (hs : s.Inv) {r : Reason} (hr : r ≠ .none) : (s.raiseFault r).Inv where
  memory := hs.memory
  length := by simp
  idle := by simp
  reason := by simp [hr]

theorem State.Inv.startEffect {s : State} (hs : s.Inv) (hp : s.phase = .idle) : (startEffect s).Inv where
  memory := hs.memory
  length := by simp
  idle := by simp
  reason := by simp [hs.reason_none (by simp [hp])]

/-- LEN and FILL advance together, and the check against N_MAX comes before the bytes (44 R173, R174). -/
theorem State.Inv.absorbEffect {s : State} (hs : s.Inv) (hp : s.phase = .active) {chunk : List Byte}
    (hc : s.len.toNat + chunk.length ≤ nMax) : (absorbEffect chunk s).Inv := by
  obtain ⟨_, hfill, hbuf, hlen, _, hphase, hreason, _, _⟩ := absorbEffect_spec hc
  obtain ⟨_, hmod⟩ := hs.length (.inl hp)
  refine ⟨?_, fun _ => ⟨by omega, ?_⟩, by simp [hphase, hp], by rw [hphase, hreason]; exact hs.reason⟩
  · rw [hbuf]; exact absorb_wf chunk s hs.memory
  · rw [hfill, absorb_fill, hlen, hmod, Nat.mod_add_mod]

theorem State.Inv.finalizeEffect {s : State} (hs : s.Inv) (hp : s.phase = .active) : (finalizeEffect s).Inv := by
  obtain ⟨_, _, hphase, hlen, hfill, hbuf, hreason, _⟩ := finalizeEffect_spec s
  have hnone := hs.reason_none (by simp [hp])
  refine ⟨?_, fun _ => ?_, by simp [hphase], by simp [hphase, hreason, hnone]⟩
  · rw [hbuf]; exact frame_wf s hs.memory
  · rw [hlen, hfill]; exact hs.length (.inl hp)

/-- Whatever the core makes of a command keeps the invariant. -/
theorem Outcomes.inv {u t : State} (h : Outcomes u t) (hu : u.Inv) : t.Inv := by
  rcases h with rfl | ⟨_, r, hr, rfl⟩ | ⟨hp, rfl⟩ | ⟨hp, chunk, hc, rfl⟩ | ⟨hp, rfl⟩ | rfl
  · exact hu
  · exact hu.raiseFault hr
  · exact hu.startEffect hp
  · exact hu.absorbEffect hp hc
  · exact hu.finalizeEffect hp
  · exact hu.statusEffect

/-- Settles O40, by the cases of a step: waiting, or one of the outcomes of a command. -/
theorem stepKeepsTheInvariant : Obligations.StepKeepsTheInvariant := by
  intro s t hs h
  rcases step_outcomes h with ⟨_, rfl⟩ | ⟨_, rest, _, _, _, ho⟩
  · exact hs
  · exact ho.inv (hs.withCmdq rest)

/-- BUF, FILL, PHASE and REASON of a hardware reset are those of the state right after reset (70 R240). -/
theorem hardwareReset_inv (s : State) : s.hardwareReset.Inv where
  memory := rfl
  length := by simp [State.hardwareReset, State.reset]
  idle := fun _ => rfl
  reason := by simp [State.hardwareReset, State.reset]

/-- Settles O39: the reset state is a hardware reset of itself, and the invariant does not read the channels. -/
theorem invariantAtResetAndUnderTheHost : Obligations.InvariantAtResetAndUnderTheHost :=
  ⟨hardwareReset_inv State.reset, hardwareReset_inv, fun _ hs => ⟨hs.hostWrite, hs.hostRead⟩⟩

/-! ### The moves of PHASE (10 R28, 44 R170) -/

/-- PHASE stays, a fault is entered outside FAULTED, START opens a computation, or FINALIZE ends it. -/
theorem Outcomes.phase {u t : State} (h : Outcomes u t) :
    t.phase = u.phase ∨ (u.phase ≠ .faulted ∧ t.phase = .faulted) ∨ (u.phase = .idle ∧ t.phase = .active) ∨
      (u.phase = .active ∧ t.phase = .done) := by
  rcases h with rfl | ⟨hn, r, _, rfl⟩ | ⟨hp, rfl⟩ | ⟨_, chunk, hc, rfl⟩ | ⟨hp, rfl⟩ | rfl
  · exact .inl rfl
  · exact .inr (.inl ⟨hn, rfl⟩)
  · exact .inr (.inr (.inl ⟨hp, rfl⟩))
  · obtain ⟨_, _, _, _, _, hphase, _⟩ := absorbEffect_spec hc
    exact .inl hphase
  · obtain ⟨_, _, hphase, _⟩ := finalizeEffect_spec u
    exact .inr (.inr (.inr ⟨hp, hphase⟩))
  · exact .inl rfl

/-- The moves of PHASE in a step, waiting included. -/
theorem step_phase {s t : State} (h : step s = .next t) :
    t.phase = s.phase ∨ (s.phase ≠ .faulted ∧ t.phase = .faulted) ∨ (s.phase = .idle ∧ t.phase = .active) ∨
      (s.phase = .active ∧ t.phase = .done) := by
  rcases step_outcomes h with ⟨_, rfl⟩ | ⟨_, rest, _, _, _, ho⟩
  · exact .inl rfl
  · exact ho.phase

/-- Settles O42: each move of PHASE in a step is one the statement allows. -/
theorem phaseMoves : Obligations.PhaseMoves := by
  intro s t h
  rcases step_phase h with hp | ⟨hn, hp⟩ | ⟨hs, hp⟩ | ⟨hs, hp⟩
  · simp +contextual [hp]
  · simp [hp, hn]
  · simp [hp, hs]
  · simp [hp, hs]

/-! ### The writers of H (10 R20) -/

@[simp] theorem rejectHeader_h (s : State) (e : HeaderError) : (s.rejectHeader e).h = s.h := by
  rcases rejectHeader_cases s e with ⟨_, he⟩ | ⟨_, he⟩
  · rw [he]
  · rw [he, raiseFault_h]

/-- H after an accepted ABSORB: the chained state over the valid bytes of BUF and the chunk (44 R174). -/
theorem absorbEffect_h {chunk : List Byte} {s : State} (hc : s.len.toNat + chunk.length ≤ nMax) :
    (absorbEffect chunk s).h =
      chain s.h (s.memRead 0 s.fill.toNat ++ chunk) ((s.fill.toNat + chunk.length) / 64) := by
  obtain ⟨hh, _⟩ := absorbEffect_spec hc
  rw [hh, ((Tracks.start s).absorb chunk).h, List.length_append, memRead_length]

/-- The number of final blocks (43 R154, R155). -/
theorem tail_blocks (s : State) : s.tail.length / 64 = if s.len.toNat % 64 + 9 ≤ 64 then 1 else 2 := by
  have hr : s.tailLen = s.len.toNat % 64 := rfl
  rw [tail_length, hr]
  split <;> split <;> omega

/-- An ABSORB that changes H completes a block. -/
theorem absorbEffect_completes_block {chunk : List Byte} {s : State} (hc : s.len.toNat + chunk.length ≤ nMax)
    (hne : (absorbEffect chunk s).h ≠ s.h) : 64 ≤ s.fill.toNat + chunk.length := by
  by_contra hlt
  rw [absorbEffect_h hc, Nat.div_eq_of_lt (by omega)] at hne
  exact hne rfl

/-- Settles O43, by the outcomes of the command a step carries out; all others leave H as it was. -/
theorem writersOfTheChainedState : Obligations.WritersOfTheChainedState := by
  intro s t h hne
  rcases step_cases h with ⟨_, rfl⟩ | ⟨e, rest, _, rfl⟩ | ⟨i, rest, hd, _⟩
  · exact absurd rfl hne
  · exact absurd (rejectHeader_h _ e) hne
  rcases step_command hd h with ⟨_, _, rfl⟩ | ⟨_, _, rfl⟩ | ⟨_, _, _, _, rfl⟩ | ⟨rfl, hp, rfl⟩ |
    ⟨chunk, rfl, hp, hc, rfl⟩ | ⟨rfl, hp, rfl⟩ | ⟨_, rfl⟩
  · exact absurd rfl hne
  · exact absurd rfl hne
  · exact absurd rfl hne
  · exact .inl ⟨rest, hd, hp, rfl, rfl⟩
  · obtain ⟨_, _, _, _, _, hphase, _⟩ := absorbEffect_spec hc
    exact .inr (.inl ⟨chunk, rest, hd, hp, hphase.trans hp, absorbEffect_completes_block (s := s.withCmdq rest) hc hne,
      absorbEffect_h hc⟩)
  · obtain ⟨hh, _, hphase, _⟩ := finalizeEffect_spec (s.withCmdq rest)
    exact .inr (.inr ⟨rest, hd, hp, hphase, by rw [hh, tail_blocks]; rfl⟩)
  · exact absurd rfl hne

/-! ### A step, and STATUS (10 R30, R32) -/

/-- Settles O25: of the three branches of a step the decoded command selects the one that executes it. -/
theorem stepRunsTheDecodedCommand : Obligations.StepRunsTheDecodedCommand := by
  intro s i rest hd
  rw [step, hd]; rfl

theorem toNat_append_add {m n : Nat} (x : BitVec m) (y : BitVec n) :
    (x ++ y).toNat = x.toNat * 2 ^ n + y.toNat := by
  rw [BitVec.toNat_append, ← Nat.shiftLeft_add_eq_or_of_lt y.isLt, Nat.shiftLeft_eq]

/-- The status word as a number (10 R32). -/
theorem toNat_statusOf (fill : BitVec 6) (r : Reason) (p : Phase) :
    (statusOf fill r p).toNat = 256 * fill.toNat + 16 * r.code.toNat + p.code.toNat := by
  have hf := fill.isLt
  have hr := r.code.isLt
  have hp := p.code.isLt
  simp only [statusOf, BitVec.toNat_setWidth, toNat_append_add]
  show (((_ * 2 ^ 4 + _) * 2 ^ 2 + 0) * 2 ^ 2 + _) % 2 ^ 32 = _
  omega

/-- The fields of the status word, in their bits (10 R32). -/
theorem statusOf_fields (fill : BitVec 6) (r : Reason) (p : Phase) :
    (statusOf fill r p).extractLsb' 0 2 = p.code ∧ (statusOf fill r p).extractLsb' 2 2 = 0 ∧
    (statusOf fill r p).extractLsb' 4 4 = r.code ∧ (statusOf fill r p).extractLsb' 8 6 = fill ∧
    (statusOf fill r p).extractLsb' 14 18 = 0 := by
  have hf := fill.isLt
  have hr := r.code.isLt
  have hp := p.code.isLt
  simp only [← BitVec.toNat_inj, BitVec.extractLsb'_toNat, toNat_statusOf, Nat.shiftRight_eq_div_pow]
  refine ⟨?_, ?_, ?_, ?_, ?_⟩ <;> simp <;> omega

/-- Settles O35: STATUS is legal in every phase. -/
theorem statusCommand : Obligations.StatusCommand := by
  intro s
  obtain ⟨hphase, hzero, hreason, hfill, hhigh⟩ := statusOf_fields s.fill s.reason s.phase
  refine ⟨s.statusWord, ?_, hphase.trans ?_, hzero, hreason.trans ?_, hfill, hhigh⟩
  · rw [exec_eq, dispatch_legal ((legal_iff _ _).mpr trivial)]; rfl
  · cases s.phase <;> rfl
  · cases s.reason <;> rfl

end Sys2Proof.Machine

namespace Sys2Proof.Machine

/-! SUPPORT. The proofs of the statements about the byte store and the channels: a canonical store is determined by what
it reads, every step answers a next state, and neither of the host's two actions on the channels interferes with one. -/

/-! ### Canonical stores (20 R50; log 3) -/

theorem wfFrom_cons {lo k : Nat} {b : Byte} {m : Memory} :
    Memory.wfFrom lo ((k, b) :: m) = true ↔
      lo ≤ k ∧ k < 64 ∧ b ≠ Config.unlistedByte ∧ Memory.wfFrom (k + 1) m = true := by
  simp only [Memory.wfFrom, Bool.and_eq_true, decide_eq_true_eq, and_assoc]

/-- The lowest address a canonical store lists reads as its own byte, never as an unlisted address does. -/
theorem read_head_ne {lo k : Nat} {b : Byte} {m : Memory} (h : Memory.wfFrom lo ((k, b) :: m) = true) :
    Memory.read ((k, b) :: m) k ≠ Config.unlistedByte := by
  rw [read_cons, if_pos rfl]
  exact (wfFrom_cons.mp h).2.2.1

/-- A canonical store starts no higher than any address that it does not read as unlisted. -/
theorem head_le_of_read_ne {lo k a : Nat} {b : Byte} {m : Memory} (h : Memory.wfFrom lo ((k, b) :: m) = true)
    (ha : Memory.read ((k, b) :: m) a ≠ Config.unlistedByte) : k ≤ a := by
  obtain ⟨-, hk, hb, hm⟩ := wfFrom_cons.mp h
  by_contra hlt
  exact ha (read_below (wfFrom_cons.mpr ⟨le_rfl, hk, hb, hm⟩) (by omega))

/-- Two canonical stores with the same first address that read alike have the same first byte and tails that read
alike. -/
theorem read_tail_eq {k : Nat} {b b' : Byte} {m m' : Memory} (hm : Memory.wfFrom (k + 1) m = true)
    (hm' : Memory.wfFrom (k + 1) m' = true)
    (hr : ∀ a, Memory.read ((k, b) :: m) a = Memory.read ((k, b') :: m') a) :
    b = b' ∧ ∀ a, m.read a = m'.read a := by
  simp only [read_cons] at hr
  refine ⟨by simpa using hr k, fun a => ?_⟩
  by_cases ha : k = a
  · rw [read_below hm (by omega), read_below hm' (by omega)]
  · simpa [ha] using hr a

/-- Canonical stores that read alike are equal, whatever address they start from. -/
theorem eq_of_read_eq {lo : Nat} {m m' : Memory} (hm : Memory.wfFrom lo m = true) (hm' : Memory.wfFrom lo m' = true)
    (hr : ∀ a, m.read a = m'.read a) : m = m' := by
  induction m generalizing lo m' with
  | nil =>
    cases m' with
    | nil => rfl
    | cons c' m' => exact absurd (hr c'.1).symm (read_head_ne hm')
  | cons c m ih =>
    cases m' with
    | nil => exact absurd (hr c.1) (read_head_ne hm)
    | cons c' m' =>
      obtain ⟨k, b⟩ := c
      obtain ⟨k', b'⟩ := c'
      have hk : k = k' := le_antisymm
        (head_le_of_read_ne hm (by rw [hr]; exact read_head_ne hm'))
        (head_le_of_read_ne hm' (by rw [← hr]; exact read_head_ne hm))
      subst hk
      obtain ⟨-, -, -, htail⟩ := wfFrom_cons.mp hm
      obtain ⟨-, -, -, htail'⟩ := wfFrom_cons.mp hm'
      obtain ⟨rfl, hread⟩ := read_tail_eq htail htail' hr
      rw [ih htail htail' hread]

/-- Settles O15, by induction on the first store: both list the same lowest address, and their tails read alike. -/
theorem canonicalStoresAreEqual : Obligations.CanonicalStoresAreEqual :=
  fun _ _ hm hm' hr => eq_of_read_eq hm hm' hr

/-! ### Every step answers (20 R58, 44 R179; log 6) -/

theorem step_waiting {s : State} (hd : decode s.cmdq = .waiting) : step s = .next s := by
  rw [step, hd]

theorem step_of_malformed {s : State} {e : HeaderError} {rest : List Word} (hd : decode s.cmdq = .malformed e rest) :
    step s = .next ((s.withCmdq rest).rejectHeader e) := by
  rw [step, hd]

theorem step_of_command {s : State} {i : Instr} {rest : List Word} (hd : decode s.cmdq = .command i rest) :
    step s = .next ((s.withCmdq rest).dispatch i.opcode (effectOf i)) :=
  (stepRunsTheDecodedCommand s i rest hd).trans (exec_eq i _)

/-- Settles O27: waiting, rejecting a header and dispatching a command each answer a next state. -/
theorem everyStepAnswersANextState : Obligations.EveryStepAnswersANextState := by
  intro s
  cases hd : decode s.cmdq with
  | waiting => exact ⟨_, step_waiting hd⟩
  | malformed e rest => exact ⟨_, step_of_malformed hd⟩
  | command i rest => exact ⟨_, step_of_command hd⟩

/-! ### The host's actions and a step (20 R58, R60, R63; log 12) -/

/-- A malformed command is split off alike whatever is appended behind it. -/
theorem decode_malformed_append {ws rest : List Word} {e : HeaderError} (h : decode ws = .malformed e rest)
    (more : List Word) : decode (ws ++ more) = .malformed e (rest ++ more) := by
  obtain ⟨hdr, data, rfl, hl, hc⟩ := decode_malformed h
  rw [List.cons_append, List.append_assoc, decode_append hl, hc]

/-- A command is split off alike whatever is appended behind it. -/
theorem decode_command_append {ws rest : List Word} {i : Instr} (h : decode ws = .command i rest)
    (more : List Word) : decode (ws ++ more) = .command i (rest ++ more) := by
  obtain ⟨hdr, data, o, rfl, hl, hc, rfl⟩ := decode_command h
  rw [List.cons_append, List.append_assoc, decode_append hl, hc]

/-- While a whole command stands at the head of CMDQ, a step answers the same state, leaves the same words and appends
the same words to RSPQ, whatever is appended to CMDQ behind the command and whatever stands on RSPQ. -/
theorem step_withChannels {s : State} (hw : decode s.cmdq ≠ .waiting) :
    ∃ (u : State) (rest e : List Word), ∀ more q,
      step (s.withChannels (s.cmdq ++ more) q) = .next (u.withChannels (rest ++ more) (q ++ e)) := by
  cases hd : decode s.cmdq with
  | waiting => exact absurd hd hw
  | malformed err rest =>
    refine ⟨s.rejectHeader err, rest, [], fun more q => ?_⟩
    rw [step_of_malformed (decode_malformed_append hd more), List.append_nil]
    exact congrArg _ (rejectHeader_withChannels err s _ q)
  | command i rest =>
    obtain ⟨u, e, hu⟩ := dispatch_withChannels i s
    refine ⟨u, rest, e, fun more q => ?_⟩
    rw [step_of_command (decode_command_append hd more)]
    exact congrArg _ (hu _ q)

/-- The answer of a step on the state's own channels, and on the channels the host has changed. -/
theorem step_next_withChannels {s t : State} (hw : decode s.cmdq ≠ .waiting) (h : step s = .next t) :
    ∃ e, t.rspq = s.rspq ++ e ∧
      ∀ more q, step (s.withChannels (s.cmdq ++ more) q) = .next (t.withChannels (t.cmdq ++ more) (q ++ e)) := by
  obtain ⟨u, rest, e, hu⟩ := step_withChannels hw
  have ht : step s = .next (u.withChannels rest (s.rspq ++ e)) := by simpa using hu [] s.rspq
  rw [h] at ht
  cases ht
  exact ⟨e, rfl, hu⟩

/-- Settles O47: the step takes the same command and changes nothing that depends on the words behind it. -/
theorem hostWriteCommutesWithStep : Obligations.HostWriteCommutesWithStep := by
  intro s t ws hw h
  obtain ⟨e, hq, hstep⟩ := step_next_withChannels hw h
  rw [hostWrite_eq, hostWrite_eq, hstep, hq]

/-- Settles O48: a waiting core keeps its state, and any other step only appends to RSPQ, behind the word the host
reads. -/
theorem hostReadCommutesWithStep : Obligations.HostReadCommutesWithStep := by
  intro s t hr h
  by_cases hw : decode s.cmdq = .waiting
  · have hts : t = s := by simpa [step_waiting hw, eq_comm] using h
    subst hts
    exact ⟨rfl, step_waiting hw⟩
  · obtain ⟨e, hq, hstep⟩ := step_next_withChannels hw h
    constructor
    · show t.rspq.head? = s.rspq.head?
      rw [hq, List.head?_append_of_ne_nil _ hr]
    · rw [hostRead_eq, hostRead_eq, hq, List.tail_append_of_ne_nil hr]
      simpa using hstep [] s.rspq.tail

end Sys2Proof.Machine

namespace Sys2Proof

/-! SUPPORT. The proofs of the statements about the encoding: which headers are commands, how the words split, the lanes
of a chunk, and the two round trips between a command and its words. -/

/-! ### Headers: match and mask (30 R80) -/

/-- Every well-formed command's words are a header that checks as its opcode, with the data words it asks for. -/
theorem selfDelimiting (i : Instr) : Laws.SelfDelimiting.Statement i := by
  cases i with
  | start => exact Laws.SelfDelimiting.start
  | absorb chunk => exact Laws.SelfDelimiting.absorb chunk
  | finalize => exact Laws.SelfDelimiting.finalize
  | status => exact Laws.SelfDelimiting.status

/-- Settles O22: the header asks for exactly the data words that stand behind it, and they spell the command. -/
theorem decodeOfEncode : Obligations.DecodeOfEncode := by
  intro i hwf rest
  obtain ⟨hdr, data, henc, hlen, hok, hspell⟩ := selfDelimiting i hwf
  rw [henc, List.cons_append, decode_append hlen, hok]
  simp only [hspell]

theorem opcodeOf_injective {c c' : BitVec 4} {o : Opcode} (h : opcodeOf c = some o) (h' : opcodeOf c' = some o) :
    c = c' :=
  (opcodeOf_eq_some.mp h).trans (opcodeOf_eq_some.mp h').symm

/-- A command without an operand has one header. -/
theorem checkHeader_ok_iff_eq {hdr : Word} {o : Opcode} (ho : o ≠ .absorb) :
    checkHeader hdr = .ok o ↔ hdr = matchWord o := by
  constructor
  · intro h
    obtain ⟨hopc, hrsv, hcnt⟩ := checkHeader_ok.mp h
    obtain ⟨hopc', hrsv', hcnt'⟩ := checkHeader_ok.mp (checkHeader_match o)
    exact word_eq_of_fields (opcodeOf_injective hopc hopc') (hrsv.trans hrsv'.symm)
      ((hcnt.resolve_left ho).trans (hcnt'.resolve_left ho).symm)
  · rintro rfl
    exact checkHeader_match o

/-- ABSORB's mask keeps OPC and RSV and clears CNT. -/
theorem fields_and_absorbMask (hdr : Word) :
    opcField (hdr &&& maskWord .absorb) = opcField hdr ∧ rsvField (hdr &&& maskWord .absorb) = rsvField hdr ∧
    cntField (hdr &&& maskWord .absorb) = 0 := by
  have hopc : (maskWord .absorb).extractLsb' 28 4 = BitVec.allOnes 4 := by decide
  have hrsv : (maskWord .absorb).extractLsb' 16 12 = BitVec.allOnes 12 := by decide
  have hcnt : (maskWord .absorb).extractLsb' 0 16 = 0#16 := by decide
  simp only [opcField, rsvField, cntField, BitVec.extractLsb'_and, hopc, hrsv, hcnt, BitVec.and_allOnes,
    BitVec.and_zero, BitVec.ofNat_eq_ofNat, and_self]

/-- The mask of a command without an operand keeps every bit. -/
theorem maskWord_of_ne {o : Opcode} (ho : o ≠ .absorb) : maskWord o = BitVec.allOnes 32 := by
  revert ho
  cases o <;> decide

theorem checkHeader_absorb {hdr : Word} :
    checkHeader hdr = .ok .absorb ↔ opcField hdr = 2 ∧ rsvField hdr = 0 := by
  simp [checkHeader_ok, opcodeOf_eq_some]

/-- A header under its command's mask is the command's match word. -/
theorem checkHeader_ok_iff_mask (hdr : Word) (o : Opcode) :
    checkHeader hdr = .ok o ↔ hdr &&& maskWord o = matchWord o := by
  by_cases ho : o = .absorb
  · subst ho
    obtain ⟨hopc, hrsv, hcnt⟩ := fields_and_absorbMask hdr
    rw [checkHeader_absorb, ← hopc, ← hrsv]
    constructor
    · rintro ⟨h₁, h₂⟩
      exact word_eq_of_fields (h₁.trans (by decide)) (h₂.trans (by decide)) (hcnt.trans (by decide))
    · intro h
      rw [h]; decide
  · rw [checkHeader_ok_iff_eq ho, maskWord_of_ne ho, BitVec.and_allOnes]

/-- Settles O16, one row of the table for each opcode. -/
theorem matchAndMaskSelectTheCommand : Obligations.MatchAndMaskSelectTheCommand := fun hdr =>
  ⟨checkHeader_ok_iff_mask hdr .start, checkHeader_ok_iff_mask hdr .absorb, checkHeader_ok_iff_mask hdr .finalize,
    checkHeader_ok_iff_mask hdr .status⟩

/-! ### Splitting the stream (30 R74) -/

/-- Settles O17: what `decode` splits off is decided by `dataWords`, and only then is the header checked. -/
theorem headerAloneSplitsTheStream : Obligations.HeaderAloneSplitsTheStream := by
  refine ⟨rfl, fun hdr ws n hn => ?_⟩
  rw [← dataWords_eq] at hn
  subst hn
  rw [decode_cons]
  refine ⟨fun h => if_pos h, fun h => ?_⟩
  rw [if_neg (by omega)]
  cases checkHeader hdr with
  | error e => exact .inr ⟨e, rfl⟩
  | ok o => exact .inl ⟨_, rfl⟩

/-! ### The lanes of a chunk (30 R78, R79, R89) -/

theorem lane_eq_extractLsb' (w : Word) (k : Nat) : lane w k = (w >>> (24 - 8 * k)).extractLsb' 0 8 :=
  BitVec.setWidth_eq_extractLsb' (by omega)

/-- Settles O18, by the byte lemma of an unpacked chunk. -/
theorem chunkByteLanes : Obligations.ChunkByteLanes := by
  intro cnt data hlen
  refine ⟨unpackChunk_length (by omega), fun j hj => ?_⟩
  rw [getD_unpackChunk hj (by omega), lane_eq_extractLsb']

/-- Data words that agree on the lanes of the chunk's bytes carry the same chunk. -/
theorem unpackChunk_congr {cnt : Nat} {data data' : List Word} (h : cnt ≤ 4 * data.length)
    (h' : cnt ≤ 4 * data'.length)
    (hl : ∀ j < cnt, lane (data.getD (j / 4) 0) (j % 4) = lane (data'.getD (j / 4) 0) (j % 4)) :
    unpackChunk cnt data = unpackChunk cnt data' := by
  apply List.ext_getElem
  · rw [unpackChunk_length h, unpackChunk_length h']
  · intro j hj hj'
    rw [← List.getD_eq_getElem _ 0 hj, ← List.getD_eq_getElem _ 0 hj']
    rw [unpackChunk_length h] at hj
    rw [getD_unpackChunk hj h, getD_unpackChunk hj h', hl j hj]

/-- Settles O19: both lists are split off whole, the header's check does not read them, and a header that passes it
is an ABSORB of the chunk they share. -/
theorem unusedLanesAreIgnored : Obligations.UnusedLanesAreIgnored := by
  intro hdr data data' rest hopc hlen hlen' hl
  rw [decode_append hlen, decode_append hlen']
  have hcnt : dataWords hdr = ((cntField hdr).toNat + 3) / 4 := if_pos hopc
  cases hc : checkHeader hdr with
  | error e => rfl
  | ok o =>
    obtain ⟨ho, _, _⟩ := checkHeader_ok.mp hc
    obtain rfl : .absorb = o := by simpa [hopc, opcodeOf] using ho
    simp only [commandOf, unpackChunk_congr (data := data) (data' := data') (by omega) (by omega) hl]

/-- The bytes of a packed chunk are the chunk and then bytes 0x00. -/
theorem packChunk_bytes (c : List Byte) : ∃ k, (packChunk c).flatMap bytesBE32 = c ++ Machine.zeros k := by
  induction c using packChunk.induct with
  | case1 => exact ⟨0, rfl⟩
  | case2 b0 => exact ⟨3, by simp [packChunk, bytesBE32_be32, Machine.zeros, List.replicate]⟩
  | case3 b0 b1 => exact ⟨2, by simp [packChunk, bytesBE32_be32, Machine.zeros, List.replicate]⟩
  | case4 b0 b1 b2 => exact ⟨1, by simp [packChunk, bytesBE32_be32, Machine.zeros, List.replicate]⟩
  | case5 b0 b1 b2 b3 rest ih =>
    obtain ⟨k, hk⟩ := ih
    exact ⟨k, by simp [packChunk, bytesBE32_be32, hk]⟩

/-- Byte j of the packed chunk: the chunk's own, and 0x00 in the unused lanes. -/
theorem lane_packChunk {c : List Byte} {j : Nat} (hj : j < 4 * (packChunk c).length) :
    lane ((packChunk c).getD (j / 4) 0) (j % 4) = c.getD j 0 := by
  obtain ⟨k, hk⟩ := packChunk_bytes c
  rw [← getD_flatMap_bytesBE32 _ hj, hk]
  by_cases h : j < c.length
  · exact Machine.getD_append_left h
  · rw [Machine.getD_append_right (by omega), Machine.getD_zeros, Machine.getD_past (by omega)]

/-- Settles O20: a chunk's data words number a quarter of its bytes, rounded up. -/
theorem commandLengths : Obligations.CommandLengths := by
  refine ⟨rfl, rfl, rfl, fun chunk => ?_⟩
  have hlen : (encode (.absorb chunk)).length = 1 + (chunk.length + 3) / 4 := by
    rw [encode, List.length_cons, packChunk_length, Nat.add_comm]
  refine ⟨hlen, fun hwf => ?_⟩
  have hn : chunk.length ≤ 65535 := of_decide_eq_true hwf
  omega

/-- Settles O21, each command evaluated. -/
theorem writtenWordsDecode : Obligations.WrittenWordsDecode := by
  refine ⟨?_, ?_, ?_, ?_, ?_, ?_⟩ <;> decide

/-! ### From words to a command and back (30 R74, R79, R80) -/

/-- An ABSORB header is the one its CNT gives. -/
theorem absorbHeader_cntField {hdr : Word} (h : checkHeader hdr = .ok .absorb) :
    absorbHeader (cntField hdr).toNat = hdr := by
  obtain ⟨hopc, hrsv⟩ := checkHeader_absorb.mp h
  have hn : (cntField hdr).toNat ≤ 65535 := by have := (cntField hdr).isLt; omega
  obtain ⟨hopc', hrsv', hcnt'⟩ := fields_absorbHeader hn
  exact word_eq_of_fields (hopc'.trans hopc.symm) (hrsv'.trans hrsv.symm) (BitVec.eq_of_toNat_eq hcnt')

/-- A command without an operand does not depend on the words it was read from. -/
theorem encode_commandOf_of_ne {o : Opcode} (ho : o ≠ .absorb) (hdr : Word) (data : List Word) :
    (commandOf o hdr data).wf = true ∧ encode (commandOf o hdr data) = [matchWord o] := by
  cases o with
  | absorb => exact absurd rfl ho
  | start => exact ⟨rfl, rfl⟩
  | finalize => exact ⟨rfl, rfl⟩
  | status => exact ⟨rfl, rfl⟩

/-- A header that checks and its data words spell a well-formed command, whose own words are that header and as many
data words. -/
theorem encode_commandOf {hdr : Word} {o : Opcode} {data : List Word} (hc : checkHeader hdr = .ok o)
    (hlen : data.length = dataWords hdr) :
    (commandOf o hdr data).wf = true ∧
    ∃ data', encode (commandOf o hdr data) = hdr :: data' ∧ data'.length = data.length := by
  by_cases ho : o = .absorb
  · subst ho
    have hcnt : dataWords hdr = ((cntField hdr).toNat + 3) / 4 := if_pos (checkHeader_absorb.mp hc).1
    have hchunk : (unpackChunk (cntField hdr).toNat data).length = (cntField hdr).toNat :=
      unpackChunk_length (by omega)
    refine ⟨?_, packChunk (unpackChunk (cntField hdr).toNat data), ?_, ?_⟩
    · have := (cntField hdr).isLt
      simp only [commandOf, Instr.wf, hchunk, decide_eq_true_eq]
      omega
    · simp only [commandOf, encode, hchunk, absorbHeader_cntField hc]
    · rw [packChunk_length, hchunk, hlen, hcnt]
  · have hdata : data.length = 0 := hlen.trans (dataWords_of_ok hc ho)
    obtain ⟨hwf, henc⟩ := encode_commandOf_of_ne ho hdr data
    exact ⟨hwf, [], by rw [henc, (checkHeader_ok_iff_eq ho).mp hc], hdata.symm⟩

/-- Settles O23: the command is well-formed and its words have the header and the length of the words it came from;
that they decode to it is the other round trip. -/
theorem encodeOfDecode : Obligations.EncodeOfDecode := by
  intro ws rest i hd
  obtain ⟨hdr, data, o, rfl, hlen, hc, rfl⟩ := decode_command hd
  obtain ⟨hwf, data', henc, hlen'⟩ := encode_commandOf hc hlen
  refine ⟨hwf, by rw [henc]; rfl, ?_, ⟨hdr :: data, rfl⟩, (decodeOfEncode _ hwf rest).trans hd.symm⟩
  simp only [henc, List.length_cons, List.length_append]
  omega

end Sys2Proof

namespace Sys2Proof.Machine

/-! SUPPORT. The proofs of the statements about a step on CMDQ and RSPQ: the words it consumes, the words it emits, and
the two faults that decoding raises. -/

/-! ### The channels in a step (20 R60, 30 R71, R74) -/

/-- Whatever the core makes of a command, it takes nothing further off CMDQ. -/
theorem Outcomes.cmdq {u t : State} (h : Outcomes u t) : t.cmdq = u.cmdq := by
  rcases h with rfl | ⟨_, r, _, rfl⟩ | ⟨_, rfl⟩ | ⟨_, chunk, hc, rfl⟩ | ⟨_, rfl⟩ | rfl
  · rfl
  · rfl
  · rfl
  · obtain ⟨_, _, _, _, _, _, _, hcmdq, _⟩ := absorbEffect_spec hc
    exact hcmdq
  · obtain ⟨_, _, _, _, _, _, _, hcmdq⟩ := finalizeEffect_spec u
    exact hcmdq
  · rfl

/-- Settles O46: a waiting core takes nothing; otherwise the command's own words go, and its effect takes no more. -/
theorem commandsAreConsumedInOrder : Obligations.CommandsAreConsumedInOrder := by
  intro s t h
  rcases step_outcomes h with ⟨hw, rfl⟩ | ⟨own, rest, hs, hne, hw, ho⟩
  · exact ⟨[], rfl, by simp [hw]⟩
  · exact ⟨own, by rw [ho.cmdq]; exact hs, by simp [hne, hw]⟩

@[simp] theorem rejectHeader_rspq (s : State) (e : HeaderError) : (s.rejectHeader e).rspq = s.rspq := by
  rcases rejectHeader_cases s e with ⟨_, he⟩ | ⟨_, he⟩
  · rw [he]
  · rw [he, raiseFault_rspq]

/-- What a well-formed command appends to RSPQ: STATUS its word, FINALIZE in ACTIVE the five words of the new H, and any
other nothing. -/
theorem CommandOutcomes.rspq {i : Instr} {u t : State} (h : CommandOutcomes i u t) :
    (i = .status ∧ t.rspq = u.rspq ++ [u.statusWord]) ∨
    (i = .finalize ∧ u.phase = .active ∧ t.phase = .done ∧ t.rspq = u.rspq ++ t.h.toList) ∨
    (i ≠ .status ∧ (u.phase = .active → i ≠ .finalize) ∧ t.rspq = u.rspq) := by
  rcases h with ⟨hi, hp, rfl⟩ | ⟨hl, _, rfl⟩ | ⟨_, rfl, _, _, rfl⟩ | ⟨rfl, _, rfl⟩ | ⟨chunk, rfl, _, hc, rfl⟩ |
    ⟨rfl, hp, rfl⟩ | ⟨rfl, rfl⟩
  · exact .inr (.inr ⟨hi, by simp [hp], rfl⟩)
  · refine .inr (.inr ⟨?_, ?_, rfl⟩)
    · rintro rfl
      exact Bool.eq_false_iff.mp hl ((legal_iff .status _).mpr trivial)
    · rintro hp rfl
      exact Bool.eq_false_iff.mp hl ((legal_iff .finalize _).mpr hp)
  · exact .inr (.inr ⟨by simp, by simp, rfl⟩)
  · exact .inr (.inr ⟨by simp, by simp, rfl⟩)
  · obtain ⟨_, _, _, _, _, _, _, _, hrspq⟩ := absorbEffect_spec hc
    exact .inr (.inr ⟨by simp, by simp, hrspq⟩)
  · obtain ⟨_, hrspq, hphase, _⟩ := finalizeEffect_spec u
    exact .inr (.inl ⟨rfl, hp, hphase, hrspq⟩)
  · exact .inl ⟨rfl, rfl⟩

/-- Settles O45: waiting and rejecting a header append nothing, and a command appends its response. -/
theorem responsesAreAppended : Obligations.ResponsesAreAppended := by
  intro s t h
  rcases step_cases h with ⟨hd, rfl⟩ | ⟨e, rest, hd, rfl⟩ | ⟨i, rest, hd, _⟩
  · exact .inr (.inr ⟨by simp [hd], by simp [hd], rfl⟩)
  · exact .inr (.inr ⟨by simp [hd], by simp [hd], rejectHeader_rspq _ e⟩)
  · rcases (step_command hd h).rspq with ⟨rfl, hq⟩ | ⟨rfl, hp, ht, hq⟩ | ⟨hi, hf, hq⟩
    · exact .inl ⟨rest, hd, hq⟩
    · exact .inr (.inl ⟨rest, hd, hp, ht, hq⟩)
    · exact .inr (.inr ⟨by simp [hd, hi], fun hp => by simp [hd, hf hp], hq⟩)

/-! ### The faults of decoding (30 R75, R76) -/

/-- A reserved code is 0 or 5 to 15 (30 R76). -/
theorem opcodeOf_eq_none {c : BitVec 4} : opcodeOf c = none ↔ c.toNat = 0 ∨ 5 ≤ c.toNat := by
  revert c
  decide

/-- Only the code 2 is ABSORB's (30 R73). -/
theorem opcodeOf_some_absorb {c : BitVec 4} {o : Opcode} (h : opcodeOf c = some o) : o = .absorb ↔ c.toNat = 2 := by
  rw [opcodeOf_eq_some.mp h]
  cases o <;> decide

theorem checkHeader_illegalOpc {hdr : Word} (h : opcodeOf (opcField hdr) = none) :
    checkHeader hdr = .error .illegalOpc := by
  rw [checkHeader, h]

theorem checkHeader_reservedField {hdr : Word} {o : Opcode} (ho : opcodeOf (opcField hdr) = some o)
    (h : rsvField hdr ≠ 0 ∨ (o ≠ .absorb ∧ cntField hdr ≠ 0)) : checkHeader hdr = .error .reservedField := by
  rw [checkHeader, ho]
  exact if_pos h

/-- Outside FAULTED a whole command with a header that is no command is consumed with its data words, and the fault is
entered (44 R170, 60 R212). -/
theorem step_headerFault {s : State} {hdr : Word} {data ws : List Word} {e : HeaderError}
    (hs : s.cmdq = hdr :: (data ++ ws)) (hp : s.phase ≠ .faulted) (hlen : data.length = dataWords hdr)
    (hc : checkHeader hdr = .error e) :
    step s = .next { s with cmdq := ws, reason := reasonOf e, phase := .faulted } := by
  have hd : decode s.cmdq = .malformed e ws := by rw [hs, decode_append hlen, hc]
  rw [step_of_malformed hd, State.rejectHeader, if_neg (by exact hp)]
  rfl

/-- Settles O28: a reserved opcode's header has no data words. -/
theorem reservedOpcodeFaults : Obligations.ReservedOpcodeFaults := by
  intro s hdr ws hs hp hopc
  have hlen : dataWords hdr = 0 := by rw [dataWords_eq, if_neg (by omega)]
  rw [← toNat_opcField] at hopc
  exact step_headerFault (data := []) hs hp hlen.symm (checkHeader_illegalOpc (opcodeOf_eq_none.mpr hopc))

/-- Settles O29: the opcode is one of the four, so the reserved fields decide. -/
theorem reservedFieldFaults : Obligations.ReservedFieldFaults := by
  intro s hdr data ws hs hp hlow hhigh hres hlen
  rw [← dataWords_eq] at hlen
  rw [← toNat_opcField] at hlow hhigh hres
  rw [← toNat_rsvField, ← toNat_cntField] at hres
  refine step_headerFault (e := .reservedField) hs hp hlen ?_
  cases ho : opcodeOf (opcField hdr) with
  | none => have := opcodeOf_eq_none.mp ho; omega
  | some o =>
    refine checkHeader_reservedField ho ?_
    rw [ne_eq, ne_eq, ne_eq, opcodeOf_some_absorb ho, ← BitVec.toNat_inj, ← BitVec.toNat_inj]
    exact hres

end Sys2Proof.Machine

namespace Sys2Proof.Machine.Asm

/-! SUPPORT. The proofs of the statements about the assembler's text: numbers and their digits, the forms of a chunk,
`.word`, and DIGEST. -/

/-! ### Digits (30 R88, R90; log 15) -/

/-- The digits of base 16 in upper case. -/
def upperDigits : List Char := ['0', '1', '2', '3', '4', '5', '6', '7', '8', '9', 'A', 'B', 'C', 'D', 'E', 'F']

/-- The digits of base 16 in lower case. -/
def lowerDigits : List Char := ['0', '1', '2', '3', '4', '5', '6', '7', '8', '9', 'a', 'b', 'c', 'd', 'e', 'f']

/-- The character is the digit of `v` in upper or in lower case. -/
def SpellsHex (c : Char) (v : Nat) : Prop := c = upperDigits.getD v '?' ∨ c = lowerDigits.getD v '?'

/-- What the assembler reads as the digit of `v` in a base. -/
def ReadsAs (base : Nat) (c : Char) (v : Nat) : Prop := digitValue c = some v ∧ v < base

theorem SpellsHex.readsAs {c : Char} {v : Nat} (h : SpellsHex c v) (hv : v < 16) : ReadsAs 16 c v := by
  have hupper : ∀ v < 16, digitValue (upperDigits.getD v '?') = some v := by decide
  have hlower : ∀ v < 16, digitValue (lowerDigits.getD v '?') = some v := by decide
  rcases h with rfl | rfl
  · exact ⟨hupper v hv, hv⟩
  · exact ⟨hlower v hv, hv⟩

theorem readsAs_decimal {d : Nat} (hd : d < 10) : ReadsAs 10 (Char.ofNat (48 + d)) d := by
  have h : ∀ d < 10, digitValue (Char.ofNat (48 + d)) = some d := by decide
  exact ⟨h d hd, hd⟩

/-- A digit stays inside a bare word. -/
theorem ReadsAs.plain {base v : Nat} {c : Char} (h : ReadsAs base c v) : plain c := by
  have hc : ∀ d, digitValue d = none → c ≠ d := by
    rintro d hd rfl
    simp [h.1] at hd
  refine ⟨hc _ (by decide), ?_, hc _ (by decide)⟩
  simp [isBlank, hc ' ' (by decide), hc '\t' (by decide), hc '\r' (by decide)]

theorem plain_of_readsAs {base : Nat} {cs : List Char} {vs : List Nat} (h : List.Forall₂ (ReadsAs base) cs vs) :
    ∀ c ∈ cs, plain c := by
  induction h with
  | nil => simp
  | cons hd _ ih => exact List.forall_mem_cons.mpr ⟨hd.plain, ih⟩

/-- Two hexadecimal digits after `0x` (30 R88). -/
theorem hexNumber_two {a b : Char} {v w : Nat} (ha : ReadsAs 16 a v) (hb : ReadsAs 16 b w) :
    hexNumber 2 ['0', 'x', a, b] = some (v * 16 + w) := by
  have h := digits_of_values (.cons ha (.cons hb .nil)) 0
  simpa [hexNumber] using h

/-- The decimal digits of the listed values, as text. -/
def decimalText (ds : List Nat) : List Char := ds.map fun d => Char.ofNat (48 + d)

/-- The number that the listed decimal digits spell. -/
def decimalValue (ds : List Nat) : Nat := ds.foldl (fun n d => 10 * n + d) 0

theorem readsAs_decimals {ds : List Nat} (hd : ∀ d ∈ ds, d < 10) :
    List.Forall₂ (ReadsAs 10) (decimalText ds) ds :=
  List.forall₂_map_left_iff.mpr (List.forall₂_same.mpr fun d hm => readsAs_decimal (hd d hm))

/-- The number that decimal digits spell (30 R88). -/
theorem decimal_digits {ds : List Nat} (hne : ds ≠ []) (hd : ∀ d ∈ ds, d < 10) :
    decimal (decimalText ds) = some (decimalValue ds) := by
  rw [decimal, if_neg (by simpa [decimalText] using hne), digits_of_values (readsAs_decimals hd)]
  simp only [decimalValue, Nat.mul_comm]

/-- A decimal number at the end of a line is one bare word. -/
theorem scan_decimal {ds : List Nat} (hne : ds ≠ []) (hd : ∀ d ∈ ds, d < 10) :
    scan .gap (decimalText ds) = some [.bare (decimalText ds)] :=
  scan_word_end (by simpa [decimalText] using hne) (plain_of_readsAs (readsAs_decimals hd))

/-! ### Lines (30 R89, R91) -/

theorem line_absorb {ts : List Token} {c : List Byte} (h : chunk ts = some c) :
    line (.bare ['A', 'B', 'S', 'O', 'R', 'B'] :: ts) = command (.absorb c) := by
  simp [line, h]

theorem line_digest {ts : List Token} {m : List Byte} (h : chunk ts = some m) :
    line (.bare ['D', 'I', 'G', 'E', 'S', 'T'] :: ts) = some (digest m) := by
  simp [line, h]

/-- The line ABSORB with the text of a chunk. -/
theorem assembleLines_absorb {cs : List Char} {ts : List Token} {c : List Byte} (hs : scan .gap cs = some ts)
    (hc : chunk ts = some c) : assembleLines [['A', 'B', 'S', 'O', 'R', 'B', ' '] ++ cs] = command (.absorb c) := by
  have hword : scan .gap (['A', 'B', 'S', 'O', 'R', 'B', ' '] ++ cs) =
      (scan .gap cs).map (.bare ['A', 'B', 'S', 'O', 'R', 'B'] :: ·) := rfl
  rw [assembleLines_one, hword, hs]
  exact line_absorb hc

/-- Settles O24: the encoder's words, with the lanes of a packed chunk. -/
theorem assemblerWords : Obligations.AssemblerWords := by
  refine ⟨rfl, rfl, rfl, rfl, rfl, rfl, fun c => ⟨fun hc => ⟨packChunk c, ?_, packChunk_length c, fun j hj => ?_⟩,
    fun hc => ?_, fun ts hts => line_absorb hts⟩⟩
  · exact if_pos (decide_eq_true hc)
  · rw [← lane_eq_extractLsb', lane_packChunk hj]
  · exact if_neg (by simpa [Instr.wf] using hc)

/-! ### The forms of a chunk (30 R88) -/

/-- What follows the keyword `bytes` are byte values, however many. -/
theorem chunk_bytes (ts : List Token) : chunk (.bare ['b', 'y', 't', 'e', 's'] :: ts) = byteValues ts := by
  unfold chunk
  split
  case h_1 h => cases h
  case h_2 h => cases h; rfl
  case h_3 h => cases h; rfl
  case h_4 h => cases h; rfl
  case h_5 h => exact absurd rfl (h _ _)

/-- The text of one byte value, with the space before it. -/
def byteText (v : Byte × Char × Char) : List Char := [' ', '0', 'x', v.2.1, v.2.2]

/-- The two digits spell the byte, the high nibble first. -/
def SpellsByte (v : Byte × Char × Char) : Prop :=
  SpellsHex v.2.1 (v.1.toNat / 16) ∧ SpellsHex v.2.2 (v.1.toNat % 16)

theorem SpellsByte.digits {v : Byte × Char × Char} (h : SpellsByte v) :
    ReadsAs 16 v.2.1 (v.1.toNat / 16) ∧ ReadsAs 16 v.2.2 (v.1.toNat % 16) :=
  ⟨h.1.readsAs (by have := v.1.isLt; omega), h.2.readsAs (by omega)⟩

/-- Byte values are one bare word each, after the bare word they end. -/
theorem scan_byteTexts {l : List (Byte × Char × Char)} (h : ∀ v ∈ l, SpellsByte v) (acc : List Char) :
    scan (.bare acc) (l.flatMap byteText) =
      some (.bare acc.reverse :: l.map fun v => .bare ['0', 'x', v.2.1, v.2.2]) := by
  induction l generalizing acc with
  | nil => rfl
  | cons v l ih =>
    obtain ⟨hhigh, hlow⟩ := (h v (by simp)).digits
    have hplain : ∀ c ∈ [v.2.1, v.2.2], plain c := by simp [hhigh.plain, hlow.plain]
    have hword : scan .gap ('0' :: 'x' :: ([v.2.1, v.2.2] ++ l.flatMap byteText)) =
        scan (.bare ['x', '0']) ([v.2.1, v.2.2] ++ l.flatMap byteText) := rfl
    show scan (.bare acc) (' ' :: '0' :: 'x' :: ([v.2.1, v.2.2] ++ l.flatMap byteText)) = _
    rw [scan_bare_blank, hword, scan_bare_append hplain, ih fun w hw => h w (by simp [hw])]
    rfl

theorem byteValues_byteTexts {l : List (Byte × Char × Char)} (h : ∀ v ∈ l, SpellsByte v) :
    byteValues (l.map fun v => .bare ['0', 'x', v.2.1, v.2.2]) = some (l.map fun v => v.1) := by
  induction l with
  | nil => rfl
  | cons v l ih =>
    obtain ⟨hhigh, hlow⟩ := (h v (by simp)).digits
    have hv : v.1.toNat / 16 * 16 + v.1.toNat % 16 = v.1.toNat := by omega
    simp only [List.map_cons, byteValues, hexNumber_two hhigh hlow, hv, ih fun w hw => h w (by simp [hw]),
      BitVec.ofNat_toNat, BitVec.setWidth_eq]

/-- The line ABSORB with a string. -/
theorem assembleLines_string {s : List Char} (hs : ∀ c ∈ s, c.toNat < 128 ∧ c ≠ '"') :
    assembleLines [['A', 'B', 'S', 'O', 'R', 'B', ' ', '"'] ++ s ++ ['"']] =
      command (.absorb (s.map fun c => BitVec.ofNat 8 c.toNat)) :=
  assembleLines_absorb (scan_string (fun c hc => (hs c hc).2) []) (ascii_of_lt fun c hc => (hs c hc).1)

/-- The line ABSORB with byte values. -/
theorem assembleLines_bytes {l : List (Byte × Char × Char)} (h : ∀ v ∈ l, SpellsByte v) :
    assembleLines [['A', 'B', 'S', 'O', 'R', 'B', ' ', 'b', 'y', 't', 'e', 's'] ++ l.flatMap byteText] =
      command (.absorb (l.map fun v => v.1)) := by
  have hscan : scan .gap (['b', 'y', 't', 'e', 's'] ++ l.flatMap byteText) =
      scan (.bare ['s', 'e', 't', 'y', 'b']) (l.flatMap byteText) := rfl
  exact assembleLines_absorb (hscan.trans (scan_byteTexts h _)) ((chunk_bytes _).trans (byteValues_byteTexts h))

/-- The line ABSORB with `zeros N`. -/
theorem assembleLines_zeros {ds : List Nat} (hne : ds ≠ []) (hd : ∀ d ∈ ds, d < 10) :
    assembleLines [['A', 'B', 'S', 'O', 'R', 'B', ' ', 'z', 'e', 'r', 'o', 's', ' '] ++ decimalText ds] =
      command (.absorb (zeros (decimalValue ds))) := by
  have hscan (cs : List Char) : scan .gap (['z', 'e', 'r', 'o', 's', ' '] ++ cs) =
      (scan .gap cs).map (.bare ['z', 'e', 'r', 'o', 's'] :: ·) := rfl
  refine assembleLines_absorb ((hscan _).trans (congrArg _ (scan_decimal hne hd))) ?_
  simp [chunk, decimal_digits hne hd]

/-- The line ABSORB with `repeat`, a string and N. -/
theorem assembleLines_repeat {s : List Char} {ds : List Nat} (hs : ∀ c ∈ s, c.toNat < 128 ∧ c ≠ '"') (hne : ds ≠ [])
    (hd : ∀ d ∈ ds, d < 10) :
    assembleLines
        [['A', 'B', 'S', 'O', 'R', 'B', ' ', 'r', 'e', 'p', 'e', 'a', 't', ' ', '"'] ++ s ++ ['"', ' '] ++
          decimalText ds] =
      command (.absorb (List.replicate (decimalValue ds) (s.map fun c => BitVec.ofNat 8 c.toNat)).flatten) := by
  have hword (cs : List Char) : scan .gap (['r', 'e', 'p', 'e', 'a', 't', ' '] ++ cs) =
      (scan .gap cs).map (.bare ['r', 'e', 'p', 'e', 'a', 't'] :: ·) := rfl
  have hscan : scan .gap ('"' :: s ++ '"' :: ' ' :: decimalText ds) = some [.quoted s, .bare (decimalText ds)] := by
    rw [scan_string fun c hc => (hs c hc).2]
    exact congrArg _ (scan_decimal hne hd)
  rw [List.append_assoc]
  refine assembleLines_absorb ((hword _).trans (congrArg _ hscan)) ?_
  simp [chunk, decimal_digits hne hd, ascii_of_lt fun c hc => (hs c hc).1]

/-- Lines whose texts scan alike place the same words. -/
theorem SameScan.assembleLines_eq {r r' : List Char} (h : SameScan r r') : assembleLines [r] = assembleLines [r'] := by
  rw [assembleLines_one, assembleLines_one, h.1]

/-- An end of a line that reads as nothing places nothing behind text whose strings are closed. -/
theorem assembleLines_end {parts : List (List Char × List Char)} {u r : List Char}
    (hp : ∀ p ∈ parts, (∀ c ∈ p.1, c ≠ '"') ∧ ∀ c ∈ p.2, c ≠ '"') (hu : ∀ c ∈ u, c ≠ '"') (hr : SameScan r []) :
    assembleLines [(parts.flatMap fun p => p.1 ++ '"' :: p.2 ++ ['"']) ++ u ++ r] =
      assembleLines [(parts.flatMap fun p => p.1 ++ '"' :: p.2 ++ ['"']) ++ u] := by
  have h := (SameScan.parts hp (hr.append hu)).assembleLines_eq
  rwa [List.append_nil, ← List.append_assoc] at h

/-- Settles O55, one lemma for each form of a chunk and one for the end of a line. -/
theorem chunkForms : Obligations.ChunkForms := by
  refine ⟨fun s hs => assembleLines_string hs, fun l hl => assembleLines_bytes hl,
    fun ds hne hd => assembleLines_zeros hne hd, fun s ds hs hne hd => assembleLines_repeat hs hne hd,
    fun parts u comment n hp hu => ⟨?_, assembleLines_end hp hu (sameScan_blanks n)⟩⟩
  rw [List.append_assoc _ (List.replicate n ' ')]
  exact assembleLines_end hp hu (sameScan_comment n comment)

/-! ### `.word` (30 R90) -/

/-- The eight nibbles of a word, the high one first. -/
def nibbles (w : Word) : List Nat := (List.range 8).map fun k => (w.extractLsb' (28 - 4 * k) 4).toNat

/-- The nibbles are the word's digits in base 16. -/
theorem foldl_nibbles (w : Word) : (nibbles w).foldl (fun n v => n * 16 + v) 0 = w.toNat := by
  have := w.isLt
  simp [nibbles, List.range_succ, BitVec.extractLsb'_toNat, Nat.shiftRight_eq_div_pow]
  omega

/-- Digits that spell the nibbles read as them. -/
theorem readsAs_nibbles {w : Word} {cs : List Char} (hlen : cs.length = 8)
    (h : ∀ k < 8, SpellsHex (cs.getD k '?') (w.extractLsb' (28 - 4 * k) 4).toNat) :
    List.Forall₂ (ReadsAs 16) cs (nibbles w) := by
  refine List.forall₂_iff_get.mpr ⟨by simp [nibbles, hlen], fun k hk _ => ?_⟩
  have hv := (h k (by omega)).readsAs (BitVec.isLt _)
  rw [List.getD_eq_getElem _ _ hk] at hv
  simpa [nibbles] using hv

theorem hexNumber_nibbles {w : Word} {cs : List Char} (hlen : cs.length = 8)
    (h : List.Forall₂ (ReadsAs 16) cs (nibbles w)) : hexNumber 8 ('0' :: 'x' :: cs) = some w.toNat := by
  rw [hexNumber, if_pos hlen, digits_of_values h, foldl_nibbles]

/-- Settles O56: the eight digits are one bare word, and their number is the word's. -/
theorem wordDirective : Obligations.WordDirective := by
  intro w cs hlen h
  have hread := readsAs_nibbles hlen h
  have hplain : ∀ c ∈ '0' :: 'x' :: cs, plain c :=
    List.forall_mem_cons.mpr ⟨⟨by decide, rfl, by decide⟩,
      List.forall_mem_cons.mpr ⟨⟨by decide, rfl, by decide⟩, plain_of_readsAs hread⟩⟩
  have hword : scan .gap (['.', 'w', 'o', 'r', 'd', ' '] ++ '0' :: 'x' :: cs) =
      (scan .gap ('0' :: 'x' :: cs)).map (.bare ['.', 'w', 'o', 'r', 'd'] :: ·) := rfl
  have hline : line [.bare ['.', 'w', 'o', 'r', 'd'], .bare ('0' :: 'x' :: cs)] = some [w] := by
    simp [line, hexNumber_nibbles hlen hread]
  rw [assembleLines_one]
  show (scan .gap (['.', 'w', 'o', 'r', 'd', ' '] ++ '0' :: 'x' :: cs)).bind line = _
  rw [hword, scan_word_end (by simp) hplain]
  exact hline

/-! ### DIGEST (30 R91) -/

/-- A slice is 65535 bytes, or what is left of them. -/
theorem length_getD_slices {n k : Nat} (m : List Byte) (h : k < n) :
    ((slices n m).getD k []).length = min 65535 (m.length - 65535 * k) := by
  rw [getD_slices m h, List.length_take, List.length_drop]

/-- The words of START, the ABSORBs of some chunks, and FINALIZE. -/
theorem encode_commands (sl : List (List Byte)) :
    (Instr.start :: (sl.map Instr.absorb ++ [Instr.finalize])).flatMap encode =
      [0x10000000] ++ (sl.flatMap fun c => encode (.absorb c)) ++ [0x30000000] := by
  rw [List.flatMap_cons, List.flatMap_append, List.flatMap_map, List.flatMap_singleton, List.append_assoc]
  rfl

/-- Settles O57: the slices of `digestCommands`, as many as it takes to hold the chunk. -/
theorem digestExpansion : Obligations.DigestExpansion := by
  refine fun m => ⟨⟨slices ((m.length + 65534) / 65535) m, ?_, ?_, ?_, slices_length _ m, fun k hk => ?_,
    fun c hc => ?_⟩, fun ts hts => line_digest hts⟩
  · rw [digest, digestCommands, encode_commands]
  · rw [digestCommands, List.length_cons, List.length_append, List.length_map, List.length_singleton]
  · exact slices_flatten _ _ (by omega)
  · rw [slices_length] at hk
    rw [length_getD_slices m (by omega)]
    omega
  · obtain ⟨k, hk, rfl⟩ := List.mem_iff_getElem.mp hc
    rw [slices_length] at hk
    rw [← List.getD_eq_getElem _ [], length_getD_slices m hk]
    omega

end Sys2Proof.Machine.Asm

namespace Sys2Proof.Machine

/-! ### Rotations and round functions, bit by bit (40) -/

/-- Below the word's width the amount needs no reduction, so R100's formula is the library's rotation. -/
theorem rotl_eq_rotateLeft (x : Word) {n : Nat} (hn : n < 32) : rotl x n = x.rotateLeft n :=
  (BitVec.rotateLeft_eq_rotateLeftAux_of_lt hn).symm

/-- The low `n` bits come round from the top of the word; the others move up by `n`. -/
theorem getLsbD_rotl (x : Word) {n i : Nat} (hn : n < 32) (hi : i < 32) :
    (rotl x n).getLsbD i = x.getLsbD ((i + (32 - n)) % 32) := by
  rw [rotl_eq_rotateLeft x hn, BitVec.getLsbD_rotateLeft_of_le hn, Bool.cond_decide]
  split
  next hlow =>
    have hround : (i + (32 - n)) % 32 = 32 - n + i := by omega
    rw [hround]
  next hhigh =>
    have hup : (i + (32 - n)) % 32 = i - n := by omega
    rw [hup, decide_eq_true hi, Bool.true_and]

/-- R101's formula is R100's with its two shifts exchanged. -/
theorem rotr_eq_rotl (x : Word) {n : Nat} (hn : n ≤ 32) : rotr x n = rotl x (32 - n) := by
  rw [rotr, rotl, Nat.sub_sub_self hn, BitVec.or_comm]

/-- Settles O1: a rotated word bit by bit, and the mirror. -/
theorem rotationsAreCyclic : Obligations.RotationsAreCyclic :=
  fun x _ _ hn => ⟨fun _ hi => getLsbD_rotl x (Nat.lt_succ_of_le hn) hi, rotr_eq_rotl x (Nat.le_succ_of_le hn)⟩

theorem getLsbD_ch (b c d : Word) {i : Nat} (hi : i < 32) :
    (ch b c d).getLsbD i = if b.getLsbD i then c.getLsbD i else d.getLsbD i := by
  rw [ch, BitVec.getLsbD_or, BitVec.getLsbD_and, BitVec.getLsbD_and, BitVec.getLsbD_not, decide_eq_true hi]
  cases b.getLsbD i <;> simp

theorem getLsbD_parity (b c d : Word) (i : Nat) :
    (parity b c d).getLsbD i = (b.getLsbD i ^^ (c.getLsbD i ^^ d.getLsbD i)) := by
  rw [parity, BitVec.getLsbD_xor, BitVec.getLsbD_xor, Bool.xor_assoc]

/-- The exclusive or of the three pairwise products is their or: two of them being 1 makes the third one 1. -/
theorem getLsbD_maj (b c d : Word) (i : Nat) :
    (maj b c d).getLsbD i =
      ((b.getLsbD i && c.getLsbD i) || (b.getLsbD i && d.getLsbD i) || (c.getLsbD i && d.getLsbD i)) := by
  simp only [maj, BitVec.getLsbD_xor, BitVec.getLsbD_and]
  cases b.getLsbD i with
  | false => simp
  | true => cases c.getLsbD i <;> simp

/-- Settles O2, one lemma for each function. -/
theorem roundFunctionsBitByBit : Obligations.RoundFunctionsBitByBit :=
  fun b c d i hi => ⟨getLsbD_ch b c d hi, getLsbD_parity b c d i, getLsbD_maj b c d i⟩

end Sys2Proof.Machine

namespace Sys2Proof.Machine

/-! ### The words of the expander's schedule (41) -/

/-- R120 of the finished schedule: the recurrence's loop starts above the words loaded from the block. -/
theorem word_expand_of_lt (blk : Block) {t : Nat} (ht : t < 16) :
    Schedule.word (expand blk) t = Block.word blk t := by
  rw [expand_eq, word_expandFrom_below 64 16 _ ht, word_loadWords blk ht]

/-- R121 of the finished schedule: the loop writes every word from 16 up. -/
theorem word_expand_of_le (blk : Block) {t : Nat} (ht : 16 ≤ t) (h80 : t < 80) :
    Schedule.word (expand blk) t = nextWord (expand blk) t := by
  rw [expand_eq]
  exact word_expandFrom 64 16 _ (Nat.le_refl 16) ht h80 (Nat.le_refl 80)

/-- Two schedules that start alike and both obey the recurrence are equal, by strong induction on the word's index:
a word above the first 16 depends on words below it only. -/
theorem schedule_eq_of_recurrence {w w' : Schedule}
    (hfirst : ∀ t < 16, Schedule.word w t = Schedule.word w' t)
    (hw : ∀ t, 16 ≤ t → t < 80 → Schedule.word w t = nextWord w t)
    (hw' : ∀ t, 16 ≤ t → t < 80 → Schedule.word w' t = nextWord w' t) : w = w' := by
  apply schedule_ext
  intro t
  induction t using Nat.strong_induction_on with
  | h t ih =>
    intro h80
    rcases Nat.lt_or_ge t 16 with hlt | hge
    · exact hfirst t hlt
    · have hbelow : ∀ u < t, Schedule.word w u = Schedule.word w' u := fun u hu => ih u hu (hu.trans h80)
      rw [hw t hge h80, hw' t hge h80, nextWord_congr hge hbelow]

/-- Settles O3: a loaded word is `be32` of its four bytes, whose formula R120 writes out. -/
theorem scheduleStartsFromTheBlock : Obligations.ScheduleStartsFromTheBlock := by
  intro blk t ht
  rw [word_expand_of_lt blk ht, Block.word, be32]

/-- Settles O4: `nextWord` is the right side of R121. -/
theorem scheduleRecurrence : Obligations.ScheduleRecurrence :=
  fun blk _ ht h79 => word_expand_of_le blk ht (Nat.lt_succ_of_le h79)

/-- Settles O5: the expander's schedule starts from the block's words and obeys the recurrence too. -/
theorem scheduleIsDetermined : Obligations.ScheduleIsDetermined :=
  fun blk _ hload hrec =>
    schedule_eq_of_recurrence (fun t ht => (hload t ht).trans (word_expand_of_lt blk ht).symm)
      (fun t ht h80 => hrec t ht (Nat.le_of_lt_succ h80)) (fun _ => word_expand_of_le blk)

end Sys2Proof.Machine

namespace Sys2Proof.Machine

/-! ### The steps and the fold of a compression (42) -/

/-- R131 numbers the rounds `w / 20`: whatever depends on the round of a step takes its four values in turn. -/
theorem apply_round {α : Type} (f : Nat → α) {w : Nat} (hw : w < 80) :
    f (w / 20) = if w < 20 then f 0 else if w < 40 then f 1 else if w < 60 then f 2 else f 3 := by
  split_ifs <;> exact congrArg f (by omega)

theorem roundFunction_round {w : Nat} (hw : w < 80) (b c d : Word) :
    roundFunction (w / 20) b c d =
      if w < 20 then ch b c d else if w < 40 then parity b c d else if w < 60 then maj b c d else parity b c d :=
  apply_round (roundFunction · b c d) hw

theorem roundConstant_round {w : Nat} (hw : w < 80) :
    roundConstant (w / 20) =
      if w < 20 then 0x5A827999 else if w < 40 then 0x6ED9EBA1 else if w < 60 then 0x8F1BBCDC else 0xCA62C1D6 :=
  apply_round roundConstant hw

/-- R132 with the library's addition. -/
theorem stepTemp_eq (sched : Schedule) (w : Nat) (x : Regs) :
    stepTemp sched w x =
      rotl x.a 5 + roundFunction (w / 20) x.b x.c x.d + x.e + roundConstant (w / 20) + Schedule.word sched w := by
  simp only [stepTemp, add32_eq]

/-- Settles O6: T with the function and the constant of the step's round; the other registers move by definition. -/
theorem stepOfEachRound : Obligations.StepOfEachRound := by
  intro sched x w hw
  rw [roundStep, stepTemp_eq, roundFunction_round hw, roundConstant_round hw, ch, parity, maj]

/-- The steps are defined by their first one; R135's order lets the last one be split off too. -/
theorem runSteps_succ (sched : Schedule) (n w : Nat) (x : Regs) :
    runSteps sched (n + 1) w x = roundStep sched (w + n) (runSteps sched n w x) := by
  induction n generalizing w x with
  | zero => rfl
  | succ n ih =>
    have hlast : w + 1 + n = w + (n + 1) := by omega
    rw [runSteps, ih, hlast, runSteps]

/-- R137 with the library's addition. -/
theorem fold_eq (h x : Regs) : fold h x = ⟨h.a + x.a, h.b + x.b, h.c + x.c, h.d + x.d, h.e + x.e⟩ := by
  simp only [fold, add32_eq]

theorem compress_eq (h : Regs) (blk : Block) : compress h blk = fold h (runSteps (expand blk) 80 0 h) := by
  rw [compress]

/-- Settles O7: the registers after the first `w` steps are the sequence. -/
theorem compressionIsEightyStepsAndFold : Obligations.CompressionIsEightyStepsAndFold := by
  refine fun h blk => ⟨fun w => runSteps (expand blk) w 0 h, rfl, fun w _ => ?_, ?_⟩
  · beta_reduce
    rw [runSteps_succ, Nat.zero_add]
  · rw [compress_eq, fold_eq]

/-- Settles O8, one lemma for each field. -/
theorem compressionWritesOnlyH : Obligations.CompressionWritesOnlyH := fun s blk =>
  ⟨compressBlock_h s blk, compressBlock_len s blk, compressBlock_fill s blk, compressBlock_buf s blk,
    compressBlock_padblk s blk, compressBlock_phase s blk, compressBlock_reason s blk, compressBlock_cmdq s blk,
    compressBlock_rspq s blk⟩

end Sys2Proof.Machine

namespace Sys2Proof.Machine

/-! ### The padding (43) -/

/-- P fills the block: N + 8 and P add up to 63, modulo 64. -/
theorem zeroCount_fills (n : Nat) : (n + 1 + zeroCount n + 8) % 64 = 0 := by
  unfold zeroCount
  omega

theorem zeroCount_le_63 (n : Nat) : zeroCount n ≤ 63 := Nat.sub_le 63 _

/-- Two zero counts that fill the block differ by a multiple of 64, and P is below 64. -/
theorem zeroCount_le_of_fills {n p : Nat} (hp : (n + 1 + p + 8) % 64 = 0) : zeroCount n ≤ p := by
  have hfills := zeroCount_fills n
  have hbound := zeroCount_le_63 n
  omega

/-- Settles O9, one lemma for each clause. -/
theorem zeroCountIsLeast : Obligations.ZeroCountIsLeast :=
  fun n => ⟨zeroCount_fills n, fun _ => zeroCount_le_of_fills, zeroCount_le_63 n, zeroCount_eq n⟩

/-- A byte cut out of a 64-bit value by a shift is a digit of it in base 256. -/
theorem setWidth_ushiftRight_eq_digit (v : BitVec 64) (j : Nat) :
    (v >>> (8 * j)).setWidth 8 = BitVec.ofNat 8 (v.toNat / 256 ^ j) := by
  have hpow : 2 ^ (8 * j) = 256 ^ j := Nat.pow_mul 2 8 j
  rw [← BitVec.ofNat_toNat, BitVec.toNat_ushiftRight, Nat.shiftRight_eq_div_pow, hpow]

/-- Byte k of `bytes_be64(v)` is digit 7 - k of v in base 256 (00 R9). -/
theorem getD_bytesBE64 (v : BitVec 64) {k : Nat} (hk : k < 8) :
    (bytesBE64 v).getD k 0 = BitVec.ofNat 8 (v.toNat / 256 ^ (7 - k)) := by
  rw [← setWidth_ushiftRight_eq_digit]
  match k, hk with
  | 0, _ | 1, _ | 2, _ | 3, _ | 4, _ | 5, _ | 6, _ => rfl
  | 7, _ => simp [bytesBE64]

/-- For N ≤ N_MAX the bit length 8·N does not wrap in 64 bits. -/
theorem toNat_bitLength {n : Nat} (hn : n ≤ 2 ^ 61 - 1) : (8 * BitVec.ofNat 64 n).toNat = 8 * n := by
  simp only [BitVec.ofNat_eq_ofNat, BitVec.toNat_mul, BitVec.toNat_ofNat]
  omega

theorem getD_footer {n k : Nat} (hn : n ≤ 2 ^ 61 - 1) (hk : k < 8) :
    (footer (BitVec.ofNat 64 n)).getD k 0 = BitVec.ofNat 8 (8 * n / 256 ^ (7 - k)) := by
  rw [footer, getD_bytesBE64 _ hk, toNat_bitLength hn]

/-- Settles O11: the digits of a product that does not wrap. -/
theorem footerIsTheExactBitLength : Obligations.FooterIsTheExactBitLength :=
  fun _ hn => ⟨footer_length _, fun _ => getD_footer hn⟩

theorem getD_pad_zero (n : Nat) : (pad n).getD 0 0 = 0x80 := rfl

/-- The bytes 1..P of PAD(N) are zero, whatever stands in for a byte out of range. -/
theorem getD_pad_of_le {n k : Nat} (d : Byte) (h1 : 1 ≤ k) (hk : k ≤ zeroCount n) : (pad n).getD k d = 0 := by
  have hlen : k < (pad n).length := by rw [pad_length]; omega
  rw [List.getD_eq_getElem _ d hlen, ← List.getD_eq_getElem _ 0 hlen, getD_pad, if_neg (by omega), if_pos hk]

/-- The bytes of PAD(N) after the zeros are the footer's. -/
theorem getD_pad_footer (n k : Nat) :
    (pad n).getD (zeroCount n + 1 + k) 0 = (footer (BitVec.ofNat 64 n)).getD k 0 := by
  rw [getD_pad, if_neg (by omega), if_neg (by omega), Nat.add_sub_cancel_left]

/-- The message, the marker, P zeros and the footer: as many whole blocks as hold N + 9 bytes (43 R156). -/
theorem padded_length (m : List Byte) : (padded m).length = 64 * ((m.length + 9 + 63) / 64) := by
  have hfills := zeroCount_fills m.length
  have hbound := zeroCount_le_63 m.length
  rw [padded, List.length_append, pad_length]
  omega

/-- Settles O10: the three parts of PAD(N), and the padded message as an append. -/
theorem paddedMessageIsWholeBlocks : Obligations.PaddedMessageIsWholeBlocks := fun m =>
  ⟨pad_length _, getD_pad_zero _, fun _ => getD_pad_of_le 0xFF,
    fun hn _ hk => (getD_pad_footer _ _).trans (getD_footer hn hk),
    List.take_left, List.drop_left, padded_length m⟩

/-- The final blocks, one after the other, are the tail: one block or two, without a rest. -/
theorem flatMap_frame (s : State) : (s.frame.1.flatMap fun blk => blk.toList) = s.tail := by
  have hlen := tail_length s
  rw [frame_blocks]
  by_cases hr : s.tailLen ≤ 55
  · rw [if_pos hr] at hlen
    rw [if_pos hr, List.flatMap_singleton, blockAt_toList_eq _ _ (by omega), List.drop_zero,
      List.take_of_length_le (by omega)]
  · rw [if_neg hr] at hlen
    rw [if_neg hr, List.flatMap_cons, List.flatMap_singleton, blockAt_toList_eq _ _ (by omega),
      blockAt_toList_eq _ _ (by omega), List.drop_zero, List.take_of_length_le (l := s.tail.drop 64) (by simp [hlen]),
      List.take_append_drop]

/-- Two blocks exactly when the marker and the footer do not fit beside the partial block (43 R154). -/
theorem frame_length (s : State) : s.frame.1.length = if s.tailLen + 9 ≤ 64 then 1 else 2 := by
  rw [frame_blocks]
  by_cases hr : s.tailLen ≤ 55
  · rw [if_pos hr, if_pos (by omega), List.length_singleton]
  · rw [if_neg hr, if_neg (by omega), List.length_cons, List.length_singleton]

/-- Settles O12: the tail is BUF[0..r-1] followed by PAD(N). -/
theorem finalBlocksAreTheTail : Obligations.FinalBlocksAreTheTail :=
  fun s => ⟨flatMap_frame s, frame_length s⟩

end Sys2Proof.Machine

namespace Sys2Proof.Machine

/-! SUPPORT. The proofs of the statements about the commands by phase and about what ABSORB and FINALIZE leave. -/

/-! ### The three answers of a command (44 R170) -/

theorem exec_legal {i : Instr} {s : State} (h : legal i.opcode s.phase = true) : exec i s = .next (effectOf i s) := by
  rw [exec_eq, dispatch_legal h]

theorem exec_sequence {i : Instr} {s : State} (h : legal i.opcode s.phase = false) (hp : s.phase ≠ .faulted) :
    exec i s = .next { s with reason := .sequence, phase := .faulted } := by
  rw [exec_eq, dispatch_sequence h hp, State.raiseFault]

theorem opcode_eq_status {i : Instr} : i.opcode = .status ↔ i = .status := by
  cases i <;> simp [Instr.opcode]

theorem dispatch_discards {i : Instr} {s : State} (hp : s.phase = .faulted) (hi : i ≠ .status) :
    s.dispatch i.opcode (effectOf i) = s :=
  dispatch_faulted hp (mt opcode_eq_status.mp hi)

theorem exec_start {s : State} (hp : s.phase = .idle) : exec .start s = .next (startEffect s) :=
  exec_legal ((legal_iff .start _).mpr hp)

theorem exec_absorb {s : State} (chunk : List Byte) (hp : s.phase = .active) :
    exec (.absorb chunk) s = .next (absorbEffect chunk s) :=
  exec_legal ((legal_iff .absorb _).mpr hp)

theorem exec_finalize {s : State} (hp : s.phase = .active) : exec .finalize s = .next (finalizeEffect s) :=
  exec_legal ((legal_iff .finalize _).mpr hp)

/-- Settles O36: none of these commands is legal in the phase named beside it. -/
theorem sequenceFaults : Obligations.SequenceFaults := by
  rintro i s (⟨rfl, hp | hp⟩ | ⟨rfl | ⟨chunk, rfl⟩, hp | hp⟩) <;>
    exact exec_sequence (by rw [hp]; rfl) (by simp [hp])

/-- Settles O30: IDLE is the only phase in which START is legal. -/
theorem startCommand : Obligations.StartCommand := fun s =>
  ⟨exec_start, fun hp => sequenceFaults .start s (.inl ⟨rfl, hp⟩),
    fun hp => by rw [exec_eq, dispatch_discards hp (by simp)]⟩

/-- Settles O37: rejecting a header and dispatching a command other than STATUS both discard while FAULTED. -/
theorem faultedDiscards : Obligations.FaultedDiscards := by
  rintro s rest hp (⟨e, hd⟩ | ⟨i, hd, hi⟩)
  · rw [step_of_malformed hd, State.rejectHeader, if_pos (by exact hp), State.withCmdq]
  · rw [step_of_command hd, dispatch_discards (by exact hp) hi, State.withCmdq]

/-! ### ABSORB (44 R173, R174) -/

/-- Settles O33: the check on the whole chunk comes before its bytes. -/
theorem absorbLengthFault : Obligations.AbsorbLengthFault := by
  intro s chunk hp hlen
  rw [exec_absorb chunk hp, absorbEffect_over hlen, State.raiseFault]

theorem absorbEffect_nil {s : State} (h : s.len.toNat ≤ nMax) : absorbEffect [] s = s := by
  simp [absorbEffect, Nat.not_lt.mpr h]

/-- Settles O32: no byte is stored, and LEN grows by 0. -/
theorem absorbOfNothing : Obligations.AbsorbOfNothing := by
  intro s hp hlen
  rw [exec_absorb [] hp, absorbEffect_nil hlen]

/-- Settles O31, from what the loop over the chunk leaves in H, FILL and BUF. -/
theorem absorbCommand : Obligations.AbsorbCommand := by
  intro s chunk hp hlim
  obtain ⟨_, hfill, hbuf, hlen, hpadblk, hphase, hreason, hcmdq, hrspq⟩ := absorbEffect_spec hlim
  refine ⟨_, exec_absorb chunk hp, absorbEffect_h hlim, ?_, hlen, fun k hk hlast => ?_, fun a ha => ?_, hpadblk, hphase,
    hreason, hcmdq, hrspq⟩
  · rw [hfill, absorb_fill]
  · rw [hbuf, absorb_buf_last chunk s k hk hlast]
  · rw [hbuf, absorb_buf_other chunk s a ha]

/-! ### FINALIZE (44 R175) -/

/-- FRAME leaves the valid bytes of the partial block as they were. -/
theorem frame_buf_below {s : State} {a : Nat} (ha : a < s.tailLen) : s.frame.2.buf.read a = s.buf.read a := by
  rw [frame_buf, if_pos (ha.trans (tailLen_lt s)), getD_tail, if_pos ha]

/-- Settles O34: BUF holds the tail's first block, whose bytes below r are those BUF held before. -/
theorem finalizeCommand : Obligations.FinalizeCommand := by
  rintro s _ hp rfl
  obtain ⟨hh, hrspq, hphase, hlen, hfill, hbuf, hreason, hcmdq⟩ := finalizeEffect_spec s
  have htail : s.memRead 0 (s.len.toNat % 64) ++ pad s.len.toNat = s.tail := rfl
  rw [htail]
  refine ⟨_, exec_finalize hp, hh, hrspq, hphase, fun a _ ha => ?_, ?_, hlen, hfill, hreason, hcmdq⟩
  · rw [hbuf, frame_buf, if_pos ha]
  · rintro a (hlow | hhigh)
    · rw [hbuf, frame_buf_below hlow]
    · rw [hbuf, frame_buf, if_neg (by omega)]

end Sys2Proof.Machine

namespace Sys2Proof.Machine

/-! SUPPORT. The proofs of the statements about what the core computes: the message a state holds grows by each chunk,
FINALIZE emits its digest, and the words of DIGEST run the commands they encode (44 R177 to R179). -/

/-! ### The message a state holds (44 R177) -/

/-- From `s` to `t` no fault was recorded, no word consumed and none emitted. -/
structure State.Silent (s t : State) : Prop where
  reason : t.reason = s.reason
  cmdq : t.cmdq = s.cmdq
  rspq : t.rspq = s.rspq

theorem State.Silent.trans {s t u : State} (h : s.Silent t) (h' : t.Silent u) : s.Silent u :=
  ⟨h'.reason.trans h.reason, h'.cmdq.trans h.cmdq, h'.rspq.trans h.rspq⟩

theorem startEffect_silent (s : State) : s.Silent (startEffect s) := ⟨rfl, rfl, rfl⟩

theorem absorbEffect_silent {s : State} {chunk : List Byte} (h : s.len.toNat + chunk.length ≤ nMax) :
    s.Silent (absorbEffect chunk s) := by
  obtain ⟨_, _, _, _, _, _, hreason, hcmdq, hrspq⟩ := absorbEffect_spec h
  exact ⟨hreason, hcmdq, hrspq⟩

theorem startEffect_holds (s : State) : (startEffect s).Holds [] where
  active := rfl
  len := rfl
  limit := Nat.zero_le _
  fill := rfl
  buf := by simp
  h := rfl

/-- The message held is the byte stream since the initial values. -/
theorem State.Holds.tracks {s : State} {m : List Byte} (hs : s.Holds m) : Tracks s initialValues m :=
  ⟨hs.fill, hs.buf, hs.h⟩

theorem State.Holds.within {s : State} {m chunk : List Byte} (hs : s.Holds m) (hlim : (m ++ chunk).length ≤ nMax) :
    s.len.toNat + chunk.length ≤ nMax := by
  rwa [hs.len, ← List.length_append]

/-- An accepted chunk extends the message held. -/
theorem State.Holds.absorbEffect {s : State} {m chunk : List Byte} (hs : s.Holds m)
    (hlim : (m ++ chunk).length ≤ nMax) : (absorbEffect chunk s).Holds (m ++ chunk) := by
  obtain ⟨hh, hfill, hbuf, hlen, _, hphase, _⟩ := absorbEffect_spec (hs.within hlim)
  have ht := hs.tracks.absorb chunk
  exact
    { active := hphase.trans hs.active
      len := by rw [hlen, hs.len, List.length_append]
      limit := hlim
      fill := by rw [hfill]; exact ht.fill
      buf := by rw [hbuf]; exact ht.buf
      h := by rw [hh]; exact ht.h }

/-- Settles O49: START's state holds no byte, and the stream of bytes grows by the chunk. -/
theorem absorbExtendsTheMessage : Obligations.AbsorbExtendsTheMessage := by
  refine ⟨fun s hp => ⟨_, exec_start hp, startEffect_holds s, rfl⟩, fun s m chunk hs hlim => ?_⟩
  exact ⟨_, exec_absorb chunk hs.active, hs.absorbEffect hlim, (absorbEffect_silent (hs.within hlim)).rspq⟩

/-! ### The digest (44 R178) -/

/-- A read of BUF from address 0 up, when its bytes are those of a list. -/
theorem memRead_zero_eq {s : State} {l : List Byte} (hlen : l.length ≤ 64)
    (h : ∀ j < l.length, s.buf.read j = l.getD j 0) : s.memRead 0 l.length = l := by
  refine List.ext_getElem (memRead_length _ _ _) fun j hj hj' => ?_
  rw [← List.getD_eq_getElem _ 0, ← List.getD_eq_getElem _ 0, getD_memRead_zero s _ j hj' hlen, h j hj']

/-- What FINALIZE frames is what the padded message has left after the complete blocks already compressed. -/
theorem State.Holds.tail_eq {s : State} {m : List Byte} (hs : s.Holds m) :
    s.tail = (padded m).drop (64 * (m.length / 64)) := by
  have hlen : (m.drop (64 * (m.length / 64))).length = s.tailLen := by
    rw [List.length_drop, State.tailLen, hs.len]; omega
  have hbuf : s.memRead 0 s.tailLen = m.drop (64 * (m.length / 64)) := by
    rw [← hlen]
    refine memRead_zero_eq (by rw [hlen]; exact (tailLen_lt s).le) fun j hj => ?_
    rw [hs.buf j (by rwa [hlen, State.tailLen, hs.len] at hj)]
    simp [List.getD_eq_getElem?_getD]
  rw [State.tail, hbuf, hs.len, padded, List.drop_append_of_le_length (Nat.mul_div_le _ _)]

/-- The blocks of the padded message: the complete ones already compressed, then the tail's. -/
theorem State.Holds.blockCount_eq {s : State} {m : List Byte} (hs : s.Holds m) :
    blockCount m.length = m.length / 64 + s.tail.length / 64 := by
  rw [hs.tail_eq, List.length_drop, padded_length, blockCount]
  omega

theorem State.Holds.finalizeEffect_h {s : State} {m : List Byte} (hs : s.Holds m) :
    (finalizeEffect s).h = sha1State m := by
  obtain ⟨hh, _⟩ := finalizeEffect_spec s
  calc (finalizeEffect s).h
      = chain (chain initialValues m (m.length / 64)) s.tail (s.tail.length / 64) := by rw [hh, hs.h]
    _ = chain (chain initialValues (padded m) (m.length / 64)) ((padded m).drop (64 * (m.length / 64)))
          (s.tail.length / 64) := by rw [hs.tail_eq, padded, chain_append _ _ _ (Nat.mul_div_le _ _)]
    _ = sha1State m := by rw [← chain_add, ← hs.blockCount_eq, sha1State]

theorem State.Holds.finalizeEffect_rspq {s : State} {m : List Byte} (hs : s.Holds m) :
    (finalizeEffect s).rspq = s.rspq ++ (sha1State m).toList := by
  obtain ⟨_, hrspq, _⟩ := finalizeEffect_spec s
  rw [hrspq, hs.finalizeEffect_h]

/-- Settles O50: the tail's blocks finish the chain over the padded message. -/
theorem finalizeEmitsTheDigest : Obligations.FinalizeEmitsTheDigest := by
  intro s m hs
  obtain ⟨_, _, hphase, _⟩ := finalizeEffect_spec s
  exact ⟨_, exec_finalize hs.active, hphase, hs.finalizeEffect_rspq⟩

/-! ### Sequences of commands (44 R177) -/

theorem execAll_cons {i : Instr} {s t : State} (h : exec i s = .next t) (is : List Instr) :
    execAll (i :: is) s = execAll is t := by
  rw [execAll, h]

theorem execAll_append {is : List Instr} {s t : State} (h : execAll is s = .next t) (js : List Instr) :
    execAll (is ++ js) s = execAll js t := by
  induction is generalizing s with
  | nil => cases h; rfl
  | cons i is ih =>
    have hi := exec_eq i s
    rw [execAll_cons hi] at h
    rw [List.cons_append, execAll_cons hi, ih h]

/-- ABSORBs of any chunks within the limit extend the message held by all of them. -/
theorem execAll_absorbs {chunks : List (List Byte)} {s : State} {m : List Byte} (hs : s.Holds m)
    (hlim : (m ++ chunks.flatten).length ≤ nMax) :
    ∃ t, execAll (chunks.map .absorb) s = .next t ∧ t.Holds (m ++ chunks.flatten) ∧ s.Silent t := by
  induction chunks generalizing s m with
  | nil => exact ⟨s, rfl, by simpa using hs, rfl, rfl, rfl⟩
  | cons c cs ih =>
    rw [List.flatten_cons, ← List.append_assoc] at hlim ⊢
    have hc : (m ++ c).length ≤ nMax := by rw [List.length_append] at hlim; omega
    obtain ⟨t, ht, hholds, hsilent⟩ := ih (hs.absorbEffect hc) hlim
    refine ⟨t, ?_, hholds, (absorbEffect_silent (hs.within hc)).trans hsilent⟩
    rw [List.map_cons, execAll_cons (exec_absorb c hs.active), ht]

/-- START and the ABSORBs of a message cut in any way. -/
theorem execAll_start_absorbs {chunks : List (List Byte)} {s : State} (hp : s.phase = .idle)
    (hlim : chunks.flatten.length ≤ nMax) :
    ∃ t, execAll (.start :: chunks.map .absorb) s = .next t ∧ t.Holds chunks.flatten ∧ s.Silent t := by
  obtain ⟨t, ht, hholds, hsilent⟩ := execAll_absorbs (chunks := chunks) (startEffect_holds s) hlim
  exact ⟨t, (execAll_cons (exec_start hp) _).trans ht, hholds, (startEffect_silent s).trans hsilent⟩

/-- Settles O51: the state after the ABSORBs holds the chunks one after the other, and FINALIZE reads only the message
held. -/
theorem chunkInvariance : Obligations.ChunkInvariance := by
  intro s chunks hp _ hlim
  obtain ⟨t, ht, hholds, hsilent⟩ := execAll_start_absorbs hp hlim
  exact ⟨t, _, ht, hholds, hsilent.rspq, exec_finalize hholds.active,
    by rw [hholds.finalizeEffect_rspq, hsilent.rspq]⟩

/-! ### Command words on CMDQ (44 R179, 30 R91) -/

/-- A step on the words of a command leaves what follows them, and otherwise answers what the command does when only
`rest` follows. -/
theorem step_encode {s : State} {i : Instr} {ws : List Word} (hwf : i.wf = true) (hs : s.cmdq = encode i ++ ws)
    (rest : List Word) :
    ∃ t, step s = .next t ∧ t.cmdq = ws ∧ exec i (s.withCmdq rest) = .next (t.withCmdq rest) := by
  obtain ⟨u, e, hu⟩ := dispatch_withChannels i s
  have hstep := step_of_command (s := s) (by rw [hs, decodeOfEncode i hwf])
  rw [withCmdq_eq, hu] at hstep
  refine ⟨_, hstep, rfl, ?_⟩
  rw [exec_eq, withCmdq_eq, hu]
  rfl

theorem run_succ {s t : State} (h : step s = .next t) (n : Nat) :
    Sys2Proof.core.run (n + 1) s = Sys2Proof.core.run n t := by
  have hcore : Sys2Proof.core.step s = .next t := h
  simp only [Host.Core.run, hcore]

/-- As many steps as there are commands run the words of well-formed commands as the commands one after the other, and
leave what follows them on CMDQ. -/
theorem run_encode {is : List Instr} {s : State} {rest : List Word} (hwf : ∀ i ∈ is, i.wf = true)
    (hs : s.cmdq = is.flatMap encode ++ rest) :
    Sys2Proof.core.run is.length s = execAll is (s.withCmdq rest) := by
  induction is generalizing s with
  | nil =>
    have hrest : s.cmdq = rest := by simpa using hs
    rw [← hrest]
    rfl
  | cons i is ih =>
    rw [List.flatMap_cons, List.append_assoc] at hs
    obtain ⟨t, hstep, hcmdq, hexec⟩ := step_encode (hwf i (by simp)) hs rest
    rw [execAll_cons hexec, List.length_cons, run_succ hstep]
    exact ih (fun j hj => hwf j (by simp [hj])) hcmdq

theorem length_le_of_mem_slices {n : Nat} {m c : List Byte} (h : c ∈ slices n m) : c.length ≤ 65535 := by
  induction n generalizing m with
  | zero => simp [slices] at h
  | succ n ih =>
    rcases List.mem_cons.mp h with rfl | h
    · exact List.length_take_le _ _
    · exact ih h

theorem digestCommands_wf (m : List Byte) : ∀ i ∈ digestCommands m, i.wf = true := by
  intro i hi
  simp only [digestCommands, List.mem_cons, List.mem_append, List.mem_map, List.not_mem_nil, or_false] at hi
  rcases hi with rfl | ⟨c, hc, rfl⟩ | rfl
  · rfl
  · exact decide_eq_true (length_le_of_mem_slices hc)
  · rfl

/-- The commands of DIGEST end the computation with the digest words, in an IDLE core. -/
theorem execAll_digestCommands {s : State} {m : List Byte} (hp : s.phase = .idle) (hlim : m.length ≤ nMax) :
    ∃ t, execAll (digestCommands m) s = .next t ∧ t.phase = .done ∧ t.reason = s.reason ∧ t.cmdq = s.cmdq ∧
      t.rspq = s.rspq ++ (sha1State m).toList := by
  have hflat : (slices ((m.length + 65534) / 65535) m).flatten = m := Asm.slices_flatten _ _ (by omega)
  obtain ⟨t, ht, hholds, hsilent⟩ := execAll_start_absorbs hp (by rwa [hflat])
  rw [hflat] at hholds
  obtain ⟨_, _, hphase, _, _, _, hreason, hcmdq⟩ := finalizeEffect_spec t
  refine ⟨_, ?_, hphase, hreason.trans hsilent.reason, hcmdq.trans hsilent.cmdq,
    by rw [hholds.finalizeEffect_rspq, hsilent.rspq]⟩
  rw [digestCommands, ← List.cons_append, execAll_append ht, execAll_cons (exec_finalize hholds.active), execAll]

/-- Settles O52: the words of DIGEST run as its commands, and these as the ABSORBs of a message cut into slices. -/
theorem digestCommandReturnsTheDigest : Obligations.DigestCommandReturnsTheDigest := by
  intro s m rest hp hr hlim hs
  obtain ⟨t, ht, hphase, hreason, hcmdq, hrspq⟩ := execAll_digestCommands (s := s.withCmdq rest) hp hlim
  exact ⟨t, (run_encode (digestCommands_wf m) hs).trans ht, hphase, hreason.trans hr, hcmdq, hrspq⟩

end Sys2Proof.Machine

namespace Sys2Proof.Machine

/-! ### The digest formatter (45) -/

theorem serialize_length (h : Regs) : (serialize h).length = 20 := flatMap_bytesBE32_length h.toList

/-- A lane as the bits R200 names. -/
theorem lane_eq_bits (w : Word) (k : Nat) : lane w k = w.extractLsb' (24 - 8 * k) 8 := by
  ext i hi
  simp [lane]

/-- Byte 4i + k of the digest lies in word i, as its lane k. -/
theorem getD_serialize (h : Regs) {i k : Nat} (hi : i < 5) (hk : k < 4) :
    (serialize h).getD (4 * i + k) 0 = lane (h.toList.getD i 0) k := by
  have hbound : 4 * i + k < 4 * h.toList.length := by
    simp only [Regs.toList, List.length_cons, List.length_nil]; omega
  have hdiv : (4 * i + k) / 4 = i := by omega
  have hmod : (4 * i + k) % 4 = k := by omega
  rw [serialize, getD_flatMap_bytesBE32 _ hbound, hdiv, hmod]

/-- Settles O13: each of the five words gives its four lanes. -/
theorem digestBytes : Obligations.DigestBytes := fun h =>
  ⟨serialize_length h, fun _ hi k hk => (getD_serialize h hi hk).trans (lane_eq_bits _ k)⟩

theorem toHex_cons (b : Byte) (d : List Byte) :
    toHex (b :: d) = hexDigit (b.toNat / 16) :: hexDigit (b.toNat % 16) :: toHex d := rfl

theorem toHex_length (d : List Byte) : (toHex d).length = 2 * d.length := by
  induction d with
  | nil => rfl
  | cons b d ih => simp only [toHex_cons, List.length_cons, ih]; omega

/-- Byte k is rendered as characters 2k and 2k + 1, whatever an absent character would read as. -/
theorem getD_toHex {d : List Byte} {k : Nat} (hk : k < d.length) (c : Char) :
    (toHex d).getD (2 * k) c = hexDigit ((d.getD k 0).toNat / 16) ∧
    (toHex d).getD (2 * k + 1) c = hexDigit ((d.getD k 0).toNat % 16) := by
  induction d generalizing k with
  | nil => simp at hk
  | cons b d ih =>
    cases k with
    | zero => exact ⟨rfl, rfl⟩
    | succ k => exact ih (Nat.lt_of_succ_lt_succ hk)

/-- A nibble's digit is in the alphabet, so the character an absent digit would read as does not matter. -/
theorem hexDigit_of_lt {v : Nat} (hv : v < 16) (c : Char) :
    hexDigit v =
      ['0', '1', '2', '3', '4', '5', '6', '7', '8', '9', 'a', 'b', 'c', 'd', 'e', 'f'].getD v c := by
  rw [hexDigit, List.getD_eq_getElem _ _ hv, List.getD_eq_getElem _ _ hv]

/-- Settles O14: the two characters of byte k are the digits of its nibbles, both below 16. -/
theorem hexRendering : Obligations.HexRendering := by
  refine fun d => ⟨toHex_length d, fun k hk => ?_⟩
  obtain ⟨hhigh, hlow⟩ := getD_toHex hk '?'
  have hbyte : (d.getD k 0).toNat < 2 ^ 8 := (d.getD k 0).isLt
  exact ⟨hhigh.trans (hexDigit_of_lt (by omega) _), hlow.trans (hexDigit_of_lt (by omega) _)⟩

end Sys2Proof.Machine

namespace Sys2Proof.Machine

/-! SUPPORT. The proofs of the statements about faults: what the core makes of a command while FAULTED, and how it comes
to be FAULTED (60 R211, R212, R216). -/

/-- While FAULTED a command is discarded, or is a STATUS that answers (60 R216). -/
theorem Outcomes.of_faulted {u t : State} (h : Outcomes u t) (hu : u.phase = .faulted) :
    t = u ∨ t = statusEffect u := by
  rcases h with ht | ⟨hn, _⟩ | ⟨hp, _⟩ | ⟨hp, _⟩ | ⟨hp, _⟩ | ht
  · exact .inl ht
  · exact absurd hu hn
  · simp [hu] at hp
  · simp [hu] at hp
  · simp [hu] at hp
  · exact .inr ht

/-- Fault entry is the only way into FAULTED (60 R212). -/
theorem Outcomes.enters_faulted {u t : State} (h : Outcomes u t) (hu : u.phase ≠ .faulted)
    (ht : t.phase = .faulted) : ∃ r, r ≠ .none ∧ t = u.raiseFault r := by
  rcases h with rfl | ⟨_, hr⟩ | ⟨_, rfl⟩ | ⟨hp, chunk, hc, rfl⟩ | ⟨_, rfl⟩ | rfl
  · exact absurd ht hu
  · exact hr
  · simp at ht
  · obtain ⟨_, _, _, _, _, hphase, _⟩ := absorbEffect_spec hc
    simp [hphase, hp] at ht
  · obtain ⟨_, _, hphase, _⟩ := finalizeEffect_spec u
    simp [hphase] at ht
  · exact absurd ht hu

/-- A step from FAULTED changes CMDQ only, apart from the word a STATUS emits. -/
theorem step_of_faulted {s t : State} (h : step s = .next t) (hs : s.phase = .faulted) :
    ∃ rest, t = s.withCmdq rest ∨ t = statusEffect (s.withCmdq rest) := by
  rcases step_outcomes h with ⟨_, rfl⟩ | ⟨_, rest, _, _, _, ho⟩
  · exact ⟨t.cmdq, .inl rfl⟩
  · exact ⟨rest, ho.of_faulted hs⟩

/-- A step into FAULTED consumes the command's words and enters the fault. -/
theorem step_enters_faulted {s t : State} (h : step s = .next t) (hs : s.phase ≠ .faulted) (ht : t.phase = .faulted) :
    ∃ rest r, r ≠ .none ∧ t = (s.withCmdq rest).raiseFault r := by
  rcases step_outcomes h with ⟨_, rfl⟩ | ⟨_, rest, _, _, _, ho⟩
  · exact absurd ht hs
  · exact ⟨rest, ho.enters_faulted hs ht⟩

/-- Settles O41: neither consuming words nor answering a STATUS writes any of these fields, and reset sets PHASE. -/
theorem faultIsSticky : Obligations.FaultIsSticky := by
  refine ⟨fun s t hs h => ?_, fun _ => rfl⟩
  obtain ⟨rest, rfl | rfl⟩ := step_of_faulted h hs
  · exact ⟨hs, rfl, rfl, rfl, rfl, rfl, rfl⟩
  · exact ⟨hs, rfl, rfl, rfl, rfl, rfl, rfl⟩

/-- Settles O44: fault entry writes REASON and PHASE only. -/
theorem faultsArePrecise : Obligations.FaultsArePrecise := by
  intro s t h hs ht
  obtain ⟨rest, r, hr, rfl⟩ := step_enters_faulted h hs ht
  exact ⟨hr, rfl, rfl, rfl, rfl, rfl, rfl⟩

end Sys2Proof.Machine

namespace Sys2Proof.Machine

/-! SUPPORT. The proofs of the statements about reset, about the end of a computation, and about the values the rules
leave unspecified: two states that agree on what a command may read stay so under every step (70 R240 to R249). -/

/-! ### What no command reads (10 R35, 70 R241) -/

/-- Two reads of BUF from address 0 up give the same bytes when the two states have the same bytes there. -/
theorem memRead_zero_congr {s t : State} {n : Nat} (hn : n ≤ 64) (h : ∀ j < n, s.buf.read j = t.buf.read j) :
    s.memRead 0 n = t.memRead 0 n := by
  have hlen : (t.memRead 0 n).length = n := memRead_length t 0 n
  have hread := memRead_zero_eq (s := s) (l := t.memRead 0 n) (by rwa [hlen]) fun j hj => by
    rw [hlen] at hj
    rw [h j hj, getD_memRead_zero t n j hj hn]
  rwa [hlen] at hread

/-- States that follow one byte stream agree on FILL, H and the valid bytes of BUF. -/
theorem Tracks.agree {s t : State} {h : Regs} {l : List Byte} (hs : Tracks s h l) (ht : Tracks t h l) :
    s.fill = t.fill ∧ s.h = t.h ∧ ∀ j < s.fill.toNat, s.buf.read j = t.buf.read j := by
  refine ⟨BitVec.eq_of_toNat_eq (hs.fill.trans ht.fill.symm), hs.h.trans ht.h.symm, fun j hj => ?_⟩
  rw [hs.fill] at hj
  rw [hs.buf j hj, ht.buf j hj]

/-- While ACTIVE two alike states have the same valid bytes. -/
theorem State.Alike.memRead_eq {s t : State} (h : s.Alike t) (hp : s.phase = .active) :
    s.memRead 0 s.fill.toNat = t.memRead 0 t.fill.toNat := by
  obtain ⟨_, _, hbuf⟩ := h.active hp
  rw [← h.fill]
  exact memRead_zero_congr s.fill.isLt.le hbuf

theorem State.Alike.statusWord_eq {s t : State} (h : s.Alike t) : s.statusWord = t.statusWord := by
  rw [State.statusWord, State.statusWord, h.fill, h.reason, h.phase]

theorem State.Alike.withCmdq {s t : State} (h : s.Alike t) (ws : List Word) : (s.withCmdq ws).Alike (t.withCmdq ws) :=
  ⟨h.phase, h.reason, h.fill, rfl, h.rspq, h.active⟩

theorem State.Alike.raiseFault {s t : State} (h : s.Alike t) (r : Reason) : (s.raiseFault r).Alike (t.raiseFault r) :=
  ⟨rfl, rfl, h.fill, h.cmdq, h.rspq, by simp⟩

/-- START writes H and LEN, and leaves no byte of BUF valid (44 R171). -/
theorem State.Alike.startEffect {s t : State} (h : s.Alike t) : (startEffect s).Alike (startEffect t) :=
  ⟨rfl, h.reason, rfl, h.cmdq, h.rspq, fun _ => ⟨rfl, rfl, by simp⟩⟩

theorem State.Alike.statusEffect {s t : State} (h : s.Alike t) : (statusEffect s).Alike (statusEffect t) :=
  ⟨h.phase, h.reason, h.fill, h.cmdq, by rw [statusEffect_rspq, statusEffect_rspq, h.rspq, h.statusWord_eq], h.active⟩

/-- An accepted ABSORB follows one stream in both states: the valid bytes of BUF and then the chunk, from H. -/
theorem State.Alike.absorbEffect_accepted {s t : State} (h : s.Alike t) (hp : s.phase = .active) {chunk : List Byte}
    (hc : s.len.toNat + chunk.length ≤ nMax) : (absorbEffect chunk s).Alike (absorbEffect chunk t) := by
  obtain ⟨hh, hlen, _⟩ := h.active hp
  obtain ⟨hh₁, hfill₁, hbuf₁, hlen₁, _, hphase₁, hreason₁, hcmdq₁, hrspq₁⟩ := absorbEffect_spec hc
  obtain ⟨hh₂, hfill₂, hbuf₂, hlen₂, _, hphase₂, hreason₂, hcmdq₂, hrspq₂⟩ :=
    absorbEffect_spec (s := t) (by rwa [hlen] at hc)
  have ht : Tracks t s.h (s.memRead 0 s.fill.toNat) := by
    rw [hh, h.memRead_eq hp]
    exact Tracks.start t
  obtain ⟨hfill, hh', hbuf⟩ := ((Tracks.start s).absorb chunk).agree (ht.absorb chunk)
  exact
    { phase := by rw [hphase₁, hphase₂, h.phase]
      reason := by rw [hreason₁, hreason₂, h.reason]
      fill := by rw [hfill₁, hfill₂, hfill]
      cmdq := by rw [hcmdq₁, hcmdq₂, h.cmdq]
      rspq := by rw [hrspq₁, hrspq₂, h.rspq]
      active := fun _ =>
        ⟨by rw [hh₁, hh₂, hh'], BitVec.eq_of_toNat_eq (by rw [hlen₁, hlen₂, hlen]), by rwa [hfill₁, hbuf₁, hbuf₂]⟩ }

/-- The check against N_MAX reads LEN only, and LEN is the same (44 R173). -/
theorem State.Alike.absorbEffect {s t : State} (h : s.Alike t) (hp : s.phase = .active) (chunk : List Byte) :
    (absorbEffect chunk s).Alike (absorbEffect chunk t) := by
  obtain ⟨_, hlen, _⟩ := h.active hp
  rcases Nat.lt_or_ge nMax (s.len.toNat + chunk.length) with hover | hc
  · rw [absorbEffect_over hover, absorbEffect_over (by rwa [hlen] at hover)]
    exact h.raiseFault .length
  · exact h.absorbEffect_accepted hp hc

/-- The bytes of BUF that FRAME reads, those below LEN mod 64, are by the invariant the valid ones (43 R155). -/
theorem State.Alike.tail_eq {s t : State} (h : s.Alike t) (hs : s.Inv) (ht : t.Inv) (hp : s.phase = .active) :
    s.tail = t.tail := by
  obtain ⟨_, hlen, _⟩ := h.active hp
  obtain ⟨_, hfill⟩ := hs.length (.inl hp)
  obtain ⟨_, hfill'⟩ := ht.length (.inl (h.phase ▸ hp))
  rw [State.tail, State.tail, State.tailLen, State.tailLen, ← hfill, ← hfill', h.memRead_eq hp, hlen]

/-- The words emitted depend on H and the tail only, and alike states in DONE may differ in H, LEN and BUF. -/
theorem State.Alike.finalizeEffect {s t : State} (h : s.Alike t) (hs : s.Inv) (ht : t.Inv) (hp : s.phase = .active) :
    (finalizeEffect s).Alike (finalizeEffect t) := by
  obtain ⟨hh, _, _⟩ := h.active hp
  obtain ⟨hh₁, hrspq₁, hphase₁, _, hfill₁, _, hreason₁, hcmdq₁⟩ := finalizeEffect_spec s
  obtain ⟨hh₂, hrspq₂, hphase₂, _, hfill₂, _, hreason₂, hcmdq₂⟩ := finalizeEffect_spec t
  exact
    { phase := by rw [hphase₁, hphase₂]
      reason := by rw [hreason₁, hreason₂, h.reason]
      fill := by rw [hfill₁, hfill₂, h.fill]
      cmdq := by rw [hcmdq₁, hcmdq₂, h.cmdq]
      rspq := by rw [hrspq₁, hrspq₂, hh₁, hh₂, h.rspq, hh, h.tail_eq hs ht hp]
      active := by simp [hphase₁] }

/-- A legal command's effect reads what alike states agree on only. -/
theorem State.Alike.effectOf {s t : State} (h : s.Alike t) (hs : s.Inv) (ht : t.Inv) {i : Instr}
    (hl : legal i.opcode s.phase = true) : (effectOf i s).Alike (effectOf i t) := by
  rcases legal_cases hl with ⟨rfl, _⟩ | ⟨chunk, rfl, hp⟩ | ⟨rfl, hp⟩ | rfl
  · exact h.startEffect
  · exact h.absorbEffect hp chunk
  · exact h.finalizeEffect hs ht hp
  · exact h.statusEffect

theorem State.Alike.rejectHeader {s t : State} (h : s.Alike t) (e : HeaderError) :
    (s.rejectHeader e).Alike (t.rejectHeader e) := by
  rw [State.rejectHeader, State.rejectHeader, ← h.phase]
  split
  · exact h
  · exact h.raiseFault _

/-- Dispatch reads PHASE only: in both states the command is carried out, discarded, or raises SEQUENCE (44 R170). -/
theorem State.Alike.dispatch {s t : State} (h : s.Alike t) (hs : s.Inv) (ht : t.Inv) (i : Instr) :
    (s.dispatch i.opcode (Machine.effectOf i)).Alike (t.dispatch i.opcode (Machine.effectOf i)) := by
  rcases dispatch_cases s i.opcode (Machine.effectOf i) with ⟨hl, he⟩ | ⟨hp, ho, he⟩ | ⟨hn, hl, he⟩
  · rw [he, dispatch_legal (h.phase ▸ hl)]
    exact h.effectOf hs ht hl
  · rw [he, dispatch_faulted (h.phase ▸ hp) ho]
    exact h
  · rw [he, dispatch_sequence (h.phase ▸ hl) (h.phase ▸ hn)]
    exact h.raiseFault .sequence

/-- Settles O53: both states decode the same words, and each branch of a step keeps what they agree on. -/
theorem stepReadsNothingUnspecified : Obligations.StepReadsNothingUnspecified := by
  intro s s' hs hs' h
  cases hd : decode s.cmdq with
  | waiting => exact ⟨_, _, step_waiting hd, step_waiting (h.cmdq ▸ hd), h⟩
  | malformed e rest =>
    exact ⟨_, _, step_of_malformed hd, step_of_malformed (h.cmdq ▸ hd), (h.withCmdq rest).rejectHeader e⟩
  | command i rest =>
    exact ⟨_, _, step_of_command hd, step_of_command (h.cmdq ▸ hd),
      (h.withCmdq rest).dispatch (hs.withCmdq rest) (hs'.withCmdq rest) i⟩

/-! ### The values reset leaves unspecified (70 R240, R241) -/

/-- Alike states stay alike in a run of any length. -/
theorem State.Alike.run {s s' : State} (h : s.Alike s') (hs : s.Inv) (hs' : s'.Inv) (n : Nat) :
    ∃ t t', Sys2Proof.core.run n s = .next t ∧ Sys2Proof.core.run n s' = .next t' ∧ t.Alike t' := by
  induction n generalizing s s' with
  | zero => exact ⟨s, s', rfl, rfl, h⟩
  | succ n ih =>
    obtain ⟨u, u', hu, hu', hau⟩ := stepReadsNothingUnspecified s s' hs hs' h
    rw [run_succ hu, run_succ hu']
    exact ih hau (stepKeepsTheInvariant s u hs hu) (stepKeepsTheInvariant s' u' hs' hu')

/-- An IDLE core without a fault meets the invariant whatever H, LEN, PADBLK, W and A..E hold. -/
theorem State.Inv.of_idle {s : State} (hp : s.phase = .idle) (hr : s.reason = .none) (hf : s.fill = 0)
    (hm : s.buf.wf = true) : s.Inv where
  memory := hm
  length := by simp [hp]
  idle := fun _ => hf
  reason := by simp [hp, hr]

/-- Settles O54: the two states are alike, because an IDLE core reads none of the unspecified fields. -/
theorem unspecifiedResetValuesAreInvisible : Obligations.UnspecifiedResetValuesAreInvisible := by
  intro r n hp hr hf hm
  have halike : r.Alike { State.reset with cmdq := r.cmdq, rspq := r.rspq } :=
    ⟨hp, hr, hf, rfl, rfl, by simp [hp]⟩
  obtain ⟨t, t', ht, ht', h⟩ := halike.run (.of_idle hp hr hf hm) (.of_idle rfl rfl rfl rfl) n
  exact ⟨t, t', ht, ht', h.rspq, h.cmdq, h.phase, h.reason, h.fill⟩

/-! ### The end of a computation (70 R248, R249) -/

/-- FINALIZE leaves DONE with the words of H on RSPQ, and takes nothing further off CMDQ. -/
theorem finalizeEffect_ended {s : State} (hw : decode s.cmdq = .waiting → s.cmdq = []) : (finalizeEffect s).ended := by
  obtain ⟨_, hrspq, hphase, _, _, _, _, hcmdq⟩ := finalizeEffect_spec s
  exact ⟨hphase, by rw [hrspq]; exact (List.suffix_append _ _).isInfix, by rwa [hcmdq]⟩

/-- Rejecting a header never leads to DONE. -/
theorem rejectHeader_phase_ne_done {s : State} (e : HeaderError) (hs : s.phase ≠ .done) :
    (s.rejectHeader e).phase ≠ .done := by
  rcases rejectHeader_cases s e with ⟨_, he⟩ | ⟨_, he⟩
  · rwa [he]
  · simp [he]

/-- FINALIZE in ACTIVE is the only command that leads to DONE from another phase (44 R170). -/
theorem CommandOutcomes.enters_done {i : Instr} {u t : State} (h : CommandOutcomes i u t) (hu : u.phase ≠ .done)
    (ht : t.phase = .done) : i = .finalize ∧ u.phase = .active := by
  rcases h with ⟨_, _, rfl⟩ | ⟨_, _, rfl⟩ | ⟨_, _, _, _, rfl⟩ | ⟨_, _, rfl⟩ | ⟨chunk, _, _, hc, rfl⟩ | ⟨hi, hp, _⟩ |
    ⟨_, rfl⟩
  · exact absurd ht hu
  · simp at ht
  · simp at ht
  · simp at ht
  · obtain ⟨_, _, _, _, _, hphase, _⟩ := absorbEffect_spec hc
    exact absurd (hphase.symm.trans ht) hu
  · exact ⟨hi, hp⟩
  · exact absurd ht hu

theorem step_enters_done {s t : State} (h : step s = .next t) (hs : s.phase ≠ .done) (ht : t.phase = .done) :
    s.phase = .active ∧ ∃ rest, decode s.cmdq = .command .finalize rest := by
  rcases step_cases h with ⟨_, rfl⟩ | ⟨e, rest, _, rfl⟩ | ⟨i, rest, hd, _⟩
  · exact absurd ht hs
  · exact absurd ht (rejectHeader_phase_ne_done e hs)
  · obtain ⟨rfl, hp⟩ := (step_command hd h).enters_done hs ht
    exact ⟨hp, rest, hd⟩

/-- A step removes no word from RSPQ (30 R71). -/
theorem step_rspq_prefix {s t : State} (h : step s = .next t) : s.rspq <+: t.rspq := by
  rcases responsesAreAppended s t h with ⟨_, _, hq⟩ | ⟨_, _, _, _, hq⟩ | ⟨_, _, hq⟩
  · exact hq ▸ List.prefix_append _ _
  · exact hq ▸ List.prefix_append _ _
  · exact hq ▸ List.prefix_rfl

/-- No step from DONE writes H (10 R20). -/
theorem step_of_done_h {s t : State} (h : step s = .next t) (hs : s.phase = .done) : t.h = s.h := by
  by_contra hne
  rcases writersOfTheChainedState s t h hne with ⟨_, _, hp, _⟩ | ⟨_, _, _, hp, _⟩ | ⟨_, _, hp, _⟩ <;> simp [hs] at hp

/-- From an end the step keeps DONE, H and the words on RSPQ, or it enters a fault. -/
theorem State.ended.step {s t : State} (hs : s.ended) (h : Machine.step s = .next t)
    (hw : decode t.cmdq = .waiting → t.cmdq = []) : t.ended ∨ t.failed := by
  obtain ⟨_, _, hmoves, _⟩ := phaseMoves s t h
  rcases hmoves hs.done with hp | hp
  · refine .inl ⟨hp, ?_, hw⟩
    rw [step_of_done_h h hs.done]
    exact hs.words.trans (step_rspq_prefix h).isInfix
  · exact .inr hp

/-- A computation that has ended is DONE, and no command waits. -/
theorem State.ended.excludes {s : State} (hs : s.ended) :
    ¬ (s.phase = .idle ∨ s.phase = .active ∨ (decode s.cmdq = .waiting ∧ s.cmdq ≠ [])) := by
  simpa [hs.done] using hs.idle

theorem State.ended.not_failed {s : State} (hs : s.ended) : ¬ s.failed := by
  rw [State.failed, hs.done]
  decide

/-- Settles O58, one lemma for each clause. -/
theorem endOfAComputation : Obligations.EndOfAComputation :=
  ⟨fun _ hp hw => ⟨_, exec_finalize hp, finalizeEffect_ended hw⟩,
    fun _ _ h hs ht => step_enters_done h hs ht.done,
    fun _ _ hs h hw => hs.step h hw,
    fun _ => ⟨fun hp hs => hs.excludes hp, Iff.rfl, fun ⟨hs, hf⟩ => hs.not_failed hf⟩⟩

/-! ### Waiting, and hardware reset (70 R240, R242, R248) -/

/-- Settles O26: waiting is the branch of a step that keeps the state. -/
theorem incompleteCommandWaits : Obligations.IncompleteCommandWaits := fun _ hd => step_waiting hd

theorem exec_status (s : State) : exec .status s = .next (statusEffect s) :=
  exec_legal (i := .status) ((legal_iff .status _).mpr trivial)

/-- FILL is 0 after a hardware reset, and NONE and IDLE have code 0 (10 R32). -/
theorem hardwareReset_statusWord (s : State) : s.hardwareReset.statusWord = 0x00000000 := by
  show statusOf 0 .none .idle = 0x00000000
  decide

theorem exec_status_hardwareReset (s : State) :
    exec .status s.hardwareReset = .next { s.hardwareReset with rspq := [0x00000000] } := by
  rw [exec_status, statusEffect, hardwareReset_statusWord]
  rfl

/-- Settles O38: reset writes these fields, and STATUS reads them. -/
theorem resetState : Obligations.ResetState :=
  ⟨fun s => ⟨rfl, rfl, rfl, rfl, rfl, exec_status_hardwareReset s⟩, rfl, rfl, rfl, rfl, rfl⟩

end Sys2Proof.Machine
